-- ==== Sys2Proof/Word.lean ====
section
/-! DEFINITION. The word types of the hardware (00_scope.md R6, R9): bytes, 32-bit words, and their widths.

Every value of the hardware is unsigned. `+`, `-` and `*` on these types already wrap modulo 2^32 (or 2^8), which is
what R11 asks of `+32`, `-32` and `*32`; `^^^` is its exclusive or and `>>>` its logical right shift. -/

namespace Sys2Proof

/-- A `u8` of the spec (R9). -/
abbrev Byte := BitVec 8

/-- A `u32` of the spec (R9): seed, lanes, command words, result words (R6 WORD_BITS, CMD_WORD_BITS, RESULT_WORD_BITS). -/
abbrev Word := BitVec 32

end Sys2Proof
end

