-- ==== Sys2Proof/Config.lean ====
section
/-! DEFINITION. What is fixed for this hardware (00_scope.md R6), and the free values (R14, 70_reset_and_hazards.md R230).

The free values are opaque constants: nothing in Lean can compute them or prove a numeral of them, so a statement proved
about a state that holds one holds whatever the hardware's contents are. -/

namespace Sys2Proof

/-- The count register's contents. Its width is R6 TOTAL_LEN_BITS, which the spec leaves as a named parameter and whose default
64 this hardware takes (92_eei_decisions.md D9). -/
abbrev TotalLen := BitVec 64

namespace Config

/-- What the seed register happens to contain at power-on: "no value" (R230). Free value, log entry 1. -/
opaque powerOnSeed : Word

/-- What lane `l` (1..4) happens to contain at power-on: "no value" (R230). Free value, log entry 1. -/
opaque powerOnLane : Nat → Word

/-- What the byte counter happens to contain at power-on: "no value" (R230). Free value, log entry 1. -/
opaque powerOnTotalLen : TotalLen

/-- What `carry_len` happens to contain at power-on: "no value" (R230). Free value, log entry 1. -/
opaque powerOnCarryLen : BitVec 4

/-- What reading byte position `j` yields when the position holds no value (R14). No rule reads one (R36), so a run meets
this only from a state no run reaches. Free value, log entry 2. -/
opaque noValueByte : Nat → Byte

end Config

end Sys2Proof
end

