-- ==== Sys2Proof/Syntax.lean ====
section
/-! DEFINITION. The command set XXH32-CMD version 1 (00_scope.md R3; 30_encoding.md R72): one constructor per row of
spec/opcode_table.json. -/

namespace Sys2Proof

/-- A command, with every operand bit its packet carries. The reserved header bits are no part of it: a packet in which one
is set is no command (30_encoding.md R79). -/
inductive Instr where
  /-- INIT (40_lifecycle.md R102): `SEED` is operand word 1, all 32 bits of it (30_encoding.md R73). -/
  | init (seed : Word)
  /-- RESET (40_lifecycle.md R103). -/
  | reset
  /-- UPDATE (41_carry_buffer_mux.md R123): the byte count field `N` = CW[4:0] and the four data words, which every packet
  carries whole (30_encoding.md R75, R76). -/
  | update (n : BitVec 5) (d0 d1 d2 d3 : Word)
  /-- DIGEST (43_finalize_tail_avalanche.md R176). -/
  | digest
  deriving DecidableEq, Repr

end Sys2Proof
end

