-- ==== Sys2Proof/Machine/State.lean ====
section
/-! DEFINITION. The state of one block (10_state.md), as plain data, and its state after power-on reset
(70_reset_and_hazards.md R230). INVENTORY.md, heading State, lists every field with the rule that names it. -/

namespace Sys2Proof.Machine

/-- Why a step stops the machine: never. Every fault of 60_exceptions.md R201 is an entry into the faulted state (R203),
which is a next state, and an incomplete packet is held, which is a next state too (30_encoding.md R84). The type has no
constructor, so no step and no meaning raises one: that is neither safe nor unsafe. -/
inductive Fault where
  deriving DecidableEq, Repr

/-- Why the model gives no meaning. -/
inductive Refusal where
  /-- Raised by an arm of `exec` whose command has no meaning yet: by none (safe). -/
  | notModelled (mnemonic : String)
  /-- Raised by the platform of several hosts on one block (Machine/Platform.lean), never by a block's own step: a host
  sends words while another host's packet is unfinished. The spec refuses that interleaving and gives it no meaning
  (20_memory.md R64) (safe). -/
  | wordInterleaving
  deriving DecidableEq, Repr

/-- The fault causes of 60_exceptions.md R201, in the priority order of R202. -/
inductive Cause where
  /-- A reserved-opcode packet (30_encoding.md R78). -/
  | illegalOpcode
  /-- A reserved header bit is 1 (R79). -/
  | reservedBits
  /-- UPDATE with N > 16 (R80). -/
  | badCount
  /-- RESET, UPDATE or DIGEST while STATUS.INITED = 0 (60_exceptions.md R205). -/
  | notInitialised
  /-- UPDATE whose bytes would take the count past the register (41_carry_buffer_mux.md R122). -/
  | lengthOverflow
  deriving DecidableEq, Repr

/-- The lane file `v[1]`..`v[4]` (10_state.md R21). -/
structure Lanes where
  v1 : Word
  v2 : Word
  v3 : Word
  v4 : Word
  deriving DecidableEq, Repr

/-- A carry-buffer position. `none` is the spec's own "holds no value" (00_scope.md R14, 10_state.md R23): a position gets it
at power-on, at reset_state and when update_alg leaves it stale, not only before the first write. -/
abbrev Cell := Option Byte

/-- The sixteen byte registers `buf[0]`..`buf[15]` (10_state.md R23). -/
abbrev CarryBuffer := Vector Cell 16

/-- The datapath registers of 10_state.md section 2, the source's HasherState. They hold values exactly while STATUS.INITED
is 1 (R27); before that their contents are the free values of `Config`. -/
structure Hasher where
  /-- `seed` (R20). -/
  seed : Word
  /-- `total_len`, the exact byte count (R22). -/
  totalLen : TotalLen
  /-- `buf[0]`..`buf[15]` (R23). -/
  buf : CarryBuffer
  /-- `carry_len`, 0..15 (R24: "a 4-bit register suffices"). -/
  carryLen : BitVec 4
  /-- `v[1]`..`v[4]` (R21). -/
  lanes : Lanes
  deriving DecidableEq, Repr

/-- One block with its two channels. -/
structure State where
  /-- The datapath registers (10_state.md section 2). -/
  hasher : Hasher
  /-- The 8-bit STATUS register (R25); Machine/Flags.lean names its fields. -/
  status : Byte
  /-- The result channel, oldest word first (R29). -/
  results : List Word
  /-- The words the command decoder holds of a packet that is not complete (30_encoding.md R84; R230 "no partial packet
  held"), oldest first. -/
  held : List Word
  /-- The words the host has put on the command channel and the block has not taken in, oldest first (30_encoding.md R70). -/
  channel : List Word
  deriving DecidableEq, Repr

/-- The state after power-on reset (R230): STATUS 0, the result channel empty, the decoder at a packet boundary, no position
of the carry buffer holding a value. What the other datapath registers contain, and which words wait on the host's channel,
R230 leaves open: they are arguments. -/
def State.powerOn (seed : Word) (lanes : Lanes) (totalLen : TotalLen) (carryLen : BitVec 4)
    (waiting : List Word) : State :=
  { hasher :=
      { seed := seed, lanes := lanes, totalLen := totalLen,
        buf := Vector.replicate 16 none, carryLen := carryLen },
    status := 0x00, results := [], held := [], channel := waiting }

/-- The machine right after power-on reset, nothing yet sent to it (R230). The contents of the registers that hold no value
are the free values of `Config` (log entry 1). -/
def State.reset : State :=
  State.powerOn Config.powerOnSeed
    { v1 := Config.powerOnLane 1, v2 := Config.powerOnLane 2, v3 := Config.powerOnLane 3, v4 := Config.powerOnLane 4 }
    Config.powerOnTotalLen Config.powerOnCarryLen []

end Sys2Proof.Machine
end

