-- ==== Sys2Proof/Machine/Operands.lean ====
section
/-! DEFINITION. How bytes become words and operands: the little-endian word (00_scope.md R12), the data bytes of an UPDATE
packet (30_encoding.md R76, 20_memory.md R57), and a 16-byte block with its four lane words (20_memory.md R53). -/

namespace Sys2Proof.Machine

/-- `le32(b0, b1, b2, b3)` (00_scope.md R12): b0 is bits [7:0] and b3 is bits [31:24]. -/
def le32 (b0 b1 b2 b3 : Byte) : Word :=
  b0.setWidth 32 ||| (b1.setWidth 32 <<< 8) ||| (b2.setWidth 32 <<< 16) ||| (b3.setWidth 32 <<< 24)

/-- Data word `D[q]` of an UPDATE packet. -/
def dataWord (d0 d1 d2 d3 : Word) (q : Nat) : Word :=
  match q with
  | 0 => d0
  | 1 => d1
  | 2 => d2
  | _ => d3

/-- Byte `k` of an UPDATE packet, `D[k div 4][8*(k mod 4)+7 : 8*(k mod 4)]` (30_encoding.md R76). -/
def dataByte (d0 d1 d2 d3 : Word) (k : Nat) : Byte :=
  (dataWord d0 d1 d2 d3 (k / 4)).extractLsb' (8 * (k % 4)) 8

/-- The data byte sequence `d` of an UPDATE packet, of length N (30_encoding.md R76). Byte positions from N up are not
looked at (R81). -/
def dataBytes (n : BitVec 5) (d0 d1 d2 d3 : Word) : List Byte :=
  (List.range n.toNat).map (dataByte d0 d1 d2 d3)

/-- A block: exactly 16 bytes (00_scope.md R16). -/
abbrev Block := Vector Byte 16

/-- The block in sixteen byte positions. A position with no value yields the free byte of log entry 2. -/
def Block.ofCells (cells : CarryBuffer) : Block :=
  Vector.ofFn fun j => (cells[j]).getD (Config.noValueByte j)

/-- The block `d[0..16)`. -/
def Block.ofList (d : List Byte) : Block :=
  Block.ofCells (Vector.ofFn fun j => d[j.val]?)

/-- Lane 1's word, bytes 0 to 3 (20_memory.md R53, 42_block_mixer.md R152). -/
def Block.w1 (b : Block) : Word := le32 b[0] b[1] b[2] b[3]
/-- Lane 2's word, bytes 4 to 7. -/
def Block.w2 (b : Block) : Word := le32 b[4] b[5] b[6] b[7]
/-- Lane 3's word, bytes 8 to 11. -/
def Block.w3 (b : Block) : Word := le32 b[8] b[9] b[10] b[11]
/-- Lane 4's word, bytes 12 to 15. -/
def Block.w4 (b : Block) : Word := le32 b[12] b[13] b[14] b[15]

end Sys2Proof.Machine
end

