-- ==== Sys2Proof/Machine/Flags.lean ====
section
/-! DEFINITION. The fields of STATUS (10_state.md R25 to R28) and the two data conditions the datapath tests without storing
them (R35). The hardware has no other flag and no condition code. -/

namespace Sys2Proof.Machine

/-- STATUS[0] FAULT (R25, R26). -/
def faultBit (st : Byte) : Bool := st.getLsbD 0

/-- STATUS[1] INITED (R25, R27). -/
def initedBit (st : Byte) : Bool := st.getLsbD 1

/-- STATUS[3:2], reserved, always 0 (R25). -/
def reservedField (st : Byte) : BitVec 2 := st.extractLsb' 2 2

/-- STATUS[7:4] CAUSE (R25, R28). -/
def causeField (st : Byte) : BitVec 4 := st.extractLsb' 4 4

/-- The code of a cause (60_exceptions.md R201). -/
def Cause.code : Cause → BitVec 4
  | .illegalOpcode => 1
  | .reservedBits => 2
  | .badCount => 3
  | .notInitialised => 4
  | .lengthOverflow => 5

/-- INITED ← 1, every other bit kept (40_lifecycle.md R102 "FAULT and CAUSE are unchanged"). -/
def setInited (st : Byte) : Byte := st.extractLsb' 2 6 ++ 1#1 ++ st.extractLsb' 0 1

/-- FAULT ← 1 and CAUSE ← the cause's code, STATUS[3:1] kept (60_exceptions.md R203). -/
def setFault (c : Cause) (st : Byte) : Byte := c.code ++ st.extractLsb' 1 3 ++ 1#1

/-- STATUS.FAULT of a state. -/
def State.faulted (s : State) : Bool := faultBit s.status

/-- STATUS.INITED of a state: whether the datapath registers hold values (10_state.md R27). -/
def State.inited (s : State) : Bool := initedBit s.status

/-- `total_len ≥ 16` on the full count: which converge form the finalizer takes (R35, 43_finalize_tail_avalanche.md R170). -/
def longStream (totalLen : TotalLen) : Bool := 16 ≤ totalLen.toNat

/-- `total_len + n > 2^TOTAL_LEN_BITS − 1` (41_carry_buffer_mux.md R122). -/
def lengthOverflows (totalLen : TotalLen) (n : Nat) : Bool :=
  totalLen.toNat + n > 2 ^ 64 - 1

end Sys2Proof.Machine
end

