-- ==== Sys2Proof/Machine/Ops.lean ====
section
/-! DEFINITION. The operations the commands share: rotation (00_scope.md R11), reading the carry buffer (10_state.md R23),
the result channel (R29), fault entry (60_exceptions.md R203) and the two guards every command starts with (R204, R205).

There is no return from a fault (R206): no operation here clears FAULT. -/

namespace Sys2Proof.Machine

/-- `rotl32(x, r)` for 1 ≤ r ≤ 31 (00_scope.md R11). -/
def rotl32 (x : Word) (r : Nat) : Word := (x <<< r) ||| (x >>> (32 - r))

/-- Read `buf[j]`. A position that holds no value yields the free byte of log entry 2; no rule reads one (10_state.md R36). -/
def Hasher.bufByte (h : Hasher) (j : Nat) : Byte := (h.buf[j]?).join.getD (Config.noValueByte j)

/-- `buf[0..carry_len)`, the valid bytes (10_state.md R23). -/
def Hasher.validBytes (h : Hasher) : List Byte := (List.range h.carryLen.toNat).map h.bufByte

/-- `emit(r)`: append r at the end of the result channel (10_state.md R29). -/
def State.emit (r : Word) (s : State) : State := { s with results := s.results ++ [r] }

/-- The datapath registers as the spec lets a rule see them: "no value" (`none`) until INIT has executed (10_state.md R27,
00_scope.md R14). -/
def State.datapath? (s : State) : Option Hasher := if s.inited then some s.hasher else none

/-- All a host can see of a block: the STATUS output and the result channel (10_state.md R30). -/
def State.outputs (s : State) : Byte × List Word := (s.status, s.results)

/-- Write the datapath registers; STATUS and the channels hold. -/
def State.withHasher (h : Hasher) (s : State) : State := { s with hasher := h }

/-- `STATUS.INITED <- 1` (40_lifecycle.md R102). -/
def State.markInited (s : State) : State := { s with status := setInited s.status }

/-- Fault entry, `raise Fault(c)` (60_exceptions.md R203): FAULT ← 1, CAUSE ← c, and nothing else. -/
def State.raiseFault (c : Cause) (s : State) : State := { s with status := setFault c s.status }

/-- Faults are sticky (R204): a faulted block discards the command, and nothing changes. -/
def State.unlessFaulted (s : State) (live : State) : State := if s.faulted then s else live

/-- The guard of R205: a block with INITED = 0 raises NOT_INITIALISED before anything is read. -/
def State.ifInited (s : State) (ready : State) : State := if s.inited then ready else s.raiseFault .notInitialised

end Sys2Proof.Machine
end

