-- ==== Sys2Proof/Machine/Params.lean ====
section
/-! DEFINITION. The constants of the xxh32 algorithm: the five primes (00_scope.md R7) and the rotation and shift amounts
(R8). -/

namespace Sys2Proof.Machine

/-- P1 (R7). -/
def prime1 : Word := 0x9E3779B1
/-- P2 (R7). -/
def prime2 : Word := 0x85EBCA77
/-- P3 (R7). -/
def prime3 : Word := 0xC2B2AE3D
/-- P4 (R7). -/
def prime4 : Word := 0x27D4EB2F
/-- P5 (R7). -/
def prime5 : Word := 0x165667B1

/-- Lane round rotation (R8). -/
def roundRot : Nat := 13
/-- Converge rotation of lane v1 (R8). -/
def convergeRot1 : Nat := 1
/-- Converge rotation of lane v2 (R8). -/
def convergeRot2 : Nat := 7
/-- Converge rotation of lane v3 (R8). -/
def convergeRot3 : Nat := 12
/-- Converge rotation of lane v4 (R8). -/
def convergeRot4 : Nat := 18
/-- Tail word rotation (R8). -/
def tailWordRot : Nat := 17
/-- Tail byte rotation (R8). -/
def tailByteRot : Nat := 11
/-- First avalanche shift (R8). -/
def avalancheShift1 : Nat := 15
/-- Second avalanche shift (R8). -/
def avalancheShift2 : Nat := 13
/-- Third avalanche shift (R8). -/
def avalancheShift3 : Nat := 16

end Sys2Proof.Machine
end

