-- ==== Sys2Proof/Machine/BlockMixer.lean ====
section
/-! DEFINITION. block_mixer (42_block_mixer.md): the lane round and the 16-byte, four-lane accumulator round. -/

namespace Sys2Proof.Machine

/-- `round32(acc, w)` (R150). -/
def round32 (acc w : Word) : Word := rotl32 (acc + w * prime2) roundRot * prime1

/-- `block_mix(v, blk)` (R151): each lane from its own value and its own four bytes, all from before the block (R153). -/
def blockMix (v : Lanes) (blk : Block) : Lanes :=
  { v1 := round32 v.v1 blk.w1, v2 := round32 v.v2 blk.w2, v3 := round32 v.v3 blk.w3, v4 := round32 v.v4 blk.w4 }

end Sys2Proof.Machine
end

