-- ==== Sys2Proof/Machine/CarryMux.lean ====
section
/-! DEFINITION. carry_buffer_mux and the UPDATE command (41_carry_buffer_mux.md). -/

namespace Sys2Proof.Machine

/-- `buf_write(base, d, m)` (R120): positions `base .. base+m−1` take `d[0..m)`, every other position holds. -/
def bufWrite (base : Nat) (d : List Byte) (m : Nat) (buf : CarryBuffer) : CarryBuffer :=
  Vector.ofFn fun j => if base ≤ j.val ∧ j.val < base + m then d[j.val - base]? else buf[j]

/-- The positions from `len` up are stale and hold no value (R121, last sentence; 10_state.md R23). -/
def bufForget (len : Nat) (buf : CarryBuffer) : CarryBuffer :=
  Vector.ofFn fun j => if j.val < len then buf[j] else none

/-- How many input bytes step 2 of update_alg consumes: `16 − carry_len` if a partial block is pending (R121). -/
def Hasher.fillCount (h : Hasher) : Nat := if h.carryLen.toNat > 0 then 16 - h.carryLen.toNat else 0

/-- The carry buffer after step 2 of update_alg (R121): filled to 16 bytes if a partial block is pending. -/
def Hasher.filledBuf (d : List Byte) (h : Hasher) : CarryBuffer :=
  if h.carryLen.toNat > 0 then bufWrite h.carryLen.toNat d (16 - h.carryLen.toNat) h.buf else h.buf

/-- The lanes after step 2 of update_alg (R121): the filled buffer is mixed if a partial block was pending. -/
def Hasher.filledLanes (d : List Byte) (h : Hasher) : Lanes :=
  if h.carryLen.toNat > 0 then blockMix h.lanes (Block.ofCells (h.filledBuf d)) else h.lanes

/-- Step 3 of update_alg (R121): `while n − p ≥ 16`, mix the next 16 input bytes. It returns the lanes and the bytes left,
`d[p..n)`. Each turn takes 16 bytes, so a fuel of the input's length never runs out. -/
def mixWhole : Nat → Lanes → List Byte → Lanes × List Byte
  | 0, v, d => (v, d)
  | fuel + 1, v, d =>
    if 16 ≤ d.length then mixWhole fuel (blockMix v (Block.ofList d)) (d.drop 16) else (v, d)

/-- Steps 2 to 4 of update_alg (R121), for an input that completes a block. -/
def Hasher.absorbBlocks (d : List Byte) (h : Hasher) : Hasher :=
  let mixed := mixWhole d.length (h.filledLanes d) (d.drop h.fillCount)
  let r := mixed.2.length
  { h with
    lanes := mixed.1
    buf := bufForget r (bufWrite 0 mixed.2 r (h.filledBuf d))
    carryLen := BitVec.ofNat 4 r }

/-- Step 1 of update_alg (R121), for an input that only lands in the buffer. -/
def Hasher.appendShort (d : List Byte) (h : Hasher) : Hasher :=
  { h with
    buf := bufWrite h.carryLen.toNat d d.length h.buf
    carryLen := BitVec.ofNat 4 (h.carryLen.toNat + d.length) }

/-- `update_alg(d)` for a byte sequence of any length (R121). The check of R122 comes before it, so in
`execUpdate` the sum is exact. Applied to more bytes than the count can take, which no command does, it wraps mod 2^64: the
model's choice (DESIGN CHOICE, log entry 15). -/
def Hasher.updateAlg (d : List Byte) (h : Hasher) : Hasher :=
  let counted : Hasher := { h with totalLen := h.totalLen + BitVec.ofNat 64 d.length }
  if h.carryLen.toNat + d.length < 16 then counted.appendShort d else counted.absorbBlocks d

/-- UPDATE (R123), its checks in the order of 60_exceptions.md R202. -/
def execUpdate (n : BitVec 5) (d0 d1 d2 d3 : Word) (s : State) : Host.Outcome State Fault Refusal :=
  .next <| s.unlessFaulted <|
    if n.toNat > 16 then s.raiseFault .badCount
    else s.ifInited <|
      if lengthOverflows s.hasher.totalLen n.toNat then s.raiseFault .lengthOverflow
      else s.withHasher (s.hasher.updateAlg (dataBytes n d0 d1 d2 d3))

end Sys2Proof.Machine
end

