-- ==== Sys2Proof/Machine/Finalizer.lean ====
section
/-! DEFINITION. finalize_tail_avalanche and the DIGEST command (43_finalize_tail_avalanche.md), and the host's two views of a
result word. -/

namespace Sys2Proof.Machine

/-- Converge (R170). -/
def converge (h : Hasher) : Word :=
  if longStream h.totalLen then
    rotl32 h.lanes.v1 convergeRot1 + rotl32 h.lanes.v2 convergeRot2
      + rotl32 h.lanes.v3 convergeRot3 + rotl32 h.lanes.v4 convergeRot4
  else h.lanes.v3 + prime5

/-- Length add (R171): the low 32 bits of the count. -/
def lengthAdd (acc : Word) (totalLen : TotalLen) : Word := acc + totalLen.extractLsb' 0 32

/-- One turn of the tail-word loop (R172). -/
def tailWord (acc w : Word) : Word := rotl32 (acc + w * prime3) tailWordRot * prime4

/-- One turn of the tail-byte loop (R173). -/
def tailByte (acc : Word) (b : Byte) : Word := rotl32 (acc + b.setWidth 32 * prime5) tailByteRot * prime1

/-- Tail words (R172): fold in each complete little-endian word (20_memory.md R54), and return the bytes left over,
`buf[i..carry_len)`. -/
def tailWords : Word → List Byte → Word × List Byte
  | acc, b0 :: b1 :: b2 :: b3 :: rest => tailWords (tailWord acc (le32 b0 b1 b2 b3)) rest
  | acc, rest => (acc, rest)

/-- Tail bytes (R173): fold in the bytes tail words left over, one at a time. -/
def tailBytes : Word → List Byte → Word
  | acc, [] => acc
  | acc, b :: rest => tailBytes (tailByte acc b) rest

/-- Avalanche (R174). -/
def avalanche (h0 : Word) : Word :=
  let h1 := (h0 ^^^ (h0 >>> avalancheShift1)) * prime2
  let h2 := (h1 ^^^ (h1 >>> avalancheShift2)) * prime3
  h2 ^^^ (h2 >>> avalancheShift3)

/-- `intdigest()` (R175): the five stages in order. It reads the state and writes none of it. -/
def intdigest (h : Hasher) : Word :=
  let tail := tailWords (lengthAdd (converge h) h.totalLen) h.validBytes
  avalanche (tailBytes tail.1 tail.2)

/-- DIGEST (R176). -/
def execDigest (s : State) : Host.Outcome State Fault Refusal :=
  .next <| s.unlessFaulted <| s.ifInited <| s.emit (intdigest s.hasher)

/-- The byte view of a result word (R177): most significant byte first. The host applies it. -/
def digestBytes (r : Word) : List Byte :=
  [r.extractLsb' 24 8, r.extractLsb' 16 8, r.extractLsb' 8 8, r.extractLsb' 0 8]

/-- `hexchar(x)` (R178), an ASCII code. -/
def hexchar (x : BitVec 4) : Byte := if x.toNat ≤ 9 then 0x30 + x.setWidth 8 else 0x61 + (x.setWidth 8 - 10)

/-- The hexadecimal view of a result word (R178): eight ASCII codes, most significant digit first. The host applies it. -/
def hexdigest (r : Word) : List Byte :=
  [hexchar (r.extractLsb' 28 4), hexchar (r.extractLsb' 24 4), hexchar (r.extractLsb' 20 4), hexchar (r.extractLsb' 16 4),
   hexchar (r.extractLsb' 12 4), hexchar (r.extractLsb' 8 4), hexchar (r.extractLsb' 4 4), hexchar (r.extractLsb' 0 4)]

end Sys2Proof.Machine
end

