-- ==== Sys2Proof/Machine/Lifecycle.lean ====
section
/-! DEFINITION. The lifecycle commands INIT and RESET (40_lifecycle.md). -/

namespace Sys2Proof.Machine

/-- `lane_init(s)` (R100). -/
def laneInit (s : Word) : Lanes :=
  { v1 := s + prime1 + prime2, v2 := s + prime2, v3 := s + 0, v4 := s - prime1 }

/-- `reset_state()` (R101): every datapath register but `seed`, from `seed`. The carry buffer's positions then hold no value
(90_conflicts.md C3). -/
def Hasher.resetState (h : Hasher) : Hasher :=
  { h with lanes := laneInit h.seed, totalLen := 0, buf := Vector.replicate 16 none, carryLen := 0 }

/-- `seed <- v` (00_scope.md R13). -/
def Hasher.withSeed (v : Word) (h : Hasher) : Hasher := { h with seed := v }

/-- INIT (R102): the one command that does not check INITED (60_exceptions.md R205). -/
def execInit (seed : Word) (s : State) : Host.Outcome State Fault Refusal :=
  .next <| s.unlessFaulted <| (s.withHasher (s.hasher.withSeed seed).resetState).markInited

/-- RESET (R103). -/
def execReset (s : State) : Host.Outcome State Fault Refusal :=
  .next <| s.unlessFaulted <| s.ifInited <| s.withHasher s.hasher.resetState

end Sys2Proof.Machine
end

