-- ==== Sys2Proof/Machine/Dispatch.lean ====
section
/-! DEFINITION. One arm per command. -/

namespace Sys2Proof.Machine

def exec (i : Instr) (s : State) : Host.Outcome State Fault Refusal :=
  match i with
  | .init seed => Sys2Proof.Machine.execInit seed s
  | .reset => Sys2Proof.Machine.execReset s
  | .update n d0 d1 d2 d3 => Sys2Proof.Machine.execUpdate n d0 d1 d2 d3 s
  | .digest => Sys2Proof.Machine.execDigest s

end Sys2Proof.Machine
end

