-- ==== Sys2Proof/WellFormed.lean ====
section
/-! DEFINITION. Which commands are legal as they stand (30_encoding.md R75, R82): only UPDATE has an operand with illegal
values. -/

namespace Sys2Proof

/-- The byte count is 0 to BEAT_MAX = 16 (30_encoding.md R75; values 17 to 31 fault, R80). -/
def Instr.countOk : Instr → Bool
  | .init _ => true
  | .reset => true
  | .update n _ _ _ _ => n.toNat ≤ 16
  | .digest => true

/-- A command that is legal as it stands (30_encoding.md R82: apart from R78 to R81 every packet is a legal command). -/
abbrev Instr.WellFormed (i : Instr) : Prop := i.countOk = true

end Sys2Proof
end

