-- ==== Sys2Proof/Decode.lean ====
section
/-! DEFINITION. The decoder of 30_encoding.md (R70 to R84), total on any sequence of command words, and after it the encoder
written from the same packet formats (R73 to R77). The hardware has no bytes in a program store: its unit is the 32-bit
command word, and a packet is a header word followed by its operand words. -/

namespace Sys2Proof

/-- The opcode map of 30_encoding.md R72: the four commands, and every other OP value. -/
inductive Opcode where
  | init
  | reset
  | update
  | digest
  | reserved
  deriving DecidableEq, Repr

/-- Why the decoder gives no command. The first three are faults of the spec (30_encoding.md R78, R79, R80). The last is no
fault: the packet is held until its words have arrived (R84). -/
inductive Reject where
  /-- OP 0x0 or 0x5 to 0xF (R78). -/
  | illegalOpcode
  /-- A reserved header bit is 1 (R79). -/
  | reservedBits
  /-- UPDATE with N in 17..31 (R80). -/
  | badCount
  /-- Not all words of the packet are there (R84). -/
  | incomplete
  deriving DecidableEq, Repr

/-- What the decoder answers: a command and the words after its packet, or the reason there is none. -/
inductive Decoded where
  | command (i : Instr) (rest : List Word)
  | rejected (r : Reject)
  deriving DecidableEq, Repr

/-- OP = CW[31:28] (30_encoding.md R71). -/
def opField (cw : Word) : BitVec 4 := cw.extractLsb' 28 4

/-- ARG = CW[27:0] (R71): all of it reserved in INIT, RESET and DIGEST (R79). -/
def argField (cw : Word) : BitVec 28 := cw.extractLsb' 0 28

/-- N = CW[4:0] of an UPDATE header (R71, R75). -/
def countField (cw : Word) : BitVec 5 := cw.extractLsb' 0 5

/-- CW[27:5], the reserved bits of an UPDATE header (R71, R79). -/
def updateReservedField (cw : Word) : BitVec 23 := cw.extractLsb' 5 23

/-- The opcode map (R72). -/
def opcodeOf (cw : Word) : Opcode :=
  if opField cw = 0x1#4 then .init
  else if opField cw = 0x2#4 then .reset
  else if opField cw = 0x3#4 then .update
  else if opField cw = 0x4#4 then .digest
  else .reserved

/-- How many words a packet has (R72, column "packet words"). -/
def Opcode.words : Opcode → Nat
  | .init => 2
  | .reset => 1
  | .update => 5
  | .digest => 1
  | .reserved => 1

/-- The packet's length in words, found from OP alone (R72). -/
def packetLen (cw : Word) : Nat := (opcodeOf cw).words

/-- Decode the packet at the head of a sequence of command words, in the check order of R83. A packet is looked at only when
all its words are there (R84; log entry 4). -/
def decode : List Word → Decoded
  | [] => .rejected .incomplete
  | cw :: operands =>
    match opcodeOf cw with
    | .reserved => .rejected .illegalOpcode
    | .init =>
      match operands with
      | seed :: rest => if argField cw = 0#28 then .command (.init seed) rest else .rejected .reservedBits
      | [] => .rejected .incomplete
    | .reset => if argField cw = 0#28 then .command .reset operands else .rejected .reservedBits
    | .update =>
      match operands with
      | d0 :: d1 :: d2 :: d3 :: rest =>
        if updateReservedField cw ≠ 0#23 then .rejected .reservedBits
        else if (countField cw).toNat > 16 then .rejected .badCount
        else .command (.update (countField cw) d0 d1 d2 d3) rest
      | _ => .rejected .incomplete
    | .digest => if argField cw = 0#28 then .command .digest operands else .rejected .reservedBits

/-- The words of a command's packet: R73 (INIT), R74 (RESET), R75 and R76 (UPDATE), R77 (DIGEST). -/
def encode : Instr → List Word
  | .init seed => [0x10000000#32, seed]
  | .reset => [0x20000000#32]
  | .update n d0 d1 d2 d3 => [0x30000000#32 ||| n.setWidth 32, d0, d1, d2, d3]
  | .digest => [0x40000000#32]

/-- The words of a sequence of commands: packets follow one another with no gaps or padding (R70). -/
def encodeAll : List Instr → List Word
  | [] => []
  | i :: rest => encode i ++ encodeAll rest

/-- A packet as spec/opcode_table.json numbers its bits: bit 0 is the least significant bit of the header word and the
operand words count on from it. Bits from `nbits` up are 0. The packet is as long as its own OP says (R72). -/
def tablePacket (nbits w : Nat) : List Word :=
  let wordAt (k : Nat) : Word := BitVec.ofNat 32 ((w % 2 ^ nbits) >>> (32 * k))
  (List.map wordAt [0, 1, 2, 3, 4]).take (packetLen (wordAt 0))

/-- The command the decoder reads from a packet given as the opcode table numbers it, none where it refuses. -/
def decodeTableWord (nbits w : Nat) : Option Instr :=
  match decode (tablePacket nbits w) with
  | .command i _ => some i
  | .rejected _ => none

end Sys2Proof
end

