-- ==== Sys2Proof/Machine/Fetch.lean ====
section
/-! DEFINITION. Taking the next packet off the command channel (30_encoding.md R70, R83, R84) and putting words on it.

A packet is taken whole or not at all: while one of its words is missing the block holds the words it has and takes no other
action. -/

namespace Sys2Proof.Machine

/-- What the decoder does next. -/
inductive Fetched where
  /-- No whole packet has arrived (30_encoding.md R84). -/
  | hold (s : State)
  /-- A faulted block takes a packet off the channel and discards it (60_exceptions.md R204). -/
  | discard (s : State)
  /-- A packet that is no command (30_encoding.md R78 to R80). -/
  | illegal (c : Cause) (s : State)
  /-- A command to execute. -/
  | run (i : Instr) (s : State)
  deriving DecidableEq, Repr

/-- The words the decoder has before it: the ones it holds, then the ones on the channel. -/
def State.arrived (s : State) : List Word := s.held ++ s.channel

/-- The block holds the words it has; nothing else changes (R84). -/
def State.holdWords (s : State) : State := { s with held := s.arrived, channel := [] }

/-- The block has taken `len` words off the channel and stands at a packet boundary. -/
def State.takeWords (len : Nat) (s : State) : State := { s with held := [], channel := s.arrived.drop len }

/-- The fault of a packet that is no command (R78, R79, R80). Nothing is raised for missing words (R84). -/
def rejectCause : Reject → Option Cause
  | .illegalOpcode => some .illegalOpcode
  | .reservedBits => some .reservedBits
  | .badCount => some .badCount
  | .incomplete => none

/-- The next packet, in the order of R83: wait for all its words (R84), discard it if the block has faulted (its length found
from OP alone, 60_exceptions.md R204), else decode it. -/
def State.fetch (s : State) : Fetched :=
  match s.arrived with
  | [] => .hold s.holdWords
  | cw :: operands =>
    if operands.length + 1 < packetLen cw then .hold s.holdWords
    else if s.faulted then .discard (s.takeWords (packetLen cw))
    else
      match decode (cw :: operands) with
      | .command i _ => .run i (s.takeWords (packetLen cw))
      | .rejected r =>
        match rejectCause r with
        | some c => .illegal c (s.takeWords (packetLen cw))
        | none => .hold s.holdWords

/-- The host sends words on the command channel (R70): they arrive after the words already there. -/
def State.deliver (ws : List Word) (s : State) : State := { s with channel := s.channel ++ ws }

/-- The packet of `tablePacket` put at the head of the command channel, the decoder at a packet boundary: the next packet the
block takes is exactly this one. Words already waiting stay behind it. -/
def State.withNextPacket (s : State) (packet : List Word) : State := { s with held := [], channel := packet ++ s.channel }

end Sys2Proof.Machine
end

