-- ==== Sys2Proof/Machine/Step.lean ====
section
/-! DEFINITION. One step of the block: one packet, or a hold (20_memory.md R61, R63; 30_encoding.md R83, R84). -/

namespace Sys2Proof.Machine

/-- One packet is taken off the command channel and executed whole, or held, or discarded, or faulted (R83). -/
def step (s : State) : Host.Outcome State Fault Refusal :=
  match s.fetch with
  | .hold s' => .next s'
  | .discard s' => .next s'
  | .illegal c s' => .next (s'.raiseFault c)
  | .run i s' => exec i s'

/-- `s` with the packet that spec/opcode_table.json numbers `w` placed where the next step takes its packet from. -/
def State.withFetchWord (s : State) (nbits w : Nat) : State := s.withNextPacket (tablePacket nbits w)

end Sys2Proof.Machine
end

