-- ==== Sys2Proof/Machine/Pseudo.lean ====
section
/-! DEFINITION. The pseudo-commands of 30_encoding.md (R86 to R88): the command sequences they expand to. -/

namespace Sys2Proof.Machine

/-- Data word `D[q]` assembled from a byte list; positions from its length up are assembled as 0x00 (R85, R76). -/
def packWord (bytes : List Byte) (q : Nat) : Word :=
  le32 (bytes.getD (4 * q) 0) (bytes.getD (4 * q + 1) 0) (bytes.getD (4 * q + 2) 0) (bytes.getD (4 * q + 3) 0)

/-- `UPDATE <bytes>` for 0 to 16 bytes: the beat that carries them (R85). -/
def beat (bytes : List Byte) : Instr :=
  .update (BitVec.ofNat 5 bytes.length) (packWord bytes 0) (packWord bytes 1) (packWord bytes 2) (packWord bytes 3)

/-- The beats of R86: 16 bytes at a time, then the last `n mod 16` bytes if there are any. Each turn takes a byte, so a fuel
of the input's length never runs out. -/
def beats : Nat → List Byte → List Instr
  | 0, _ => []
  | fuel + 1, d =>
    if 16 ≤ d.length then beat (d.take 16) :: beats fuel (d.drop 16)
    else if d.length = 0 then [] else [beat d]

/-- `UPDATE_STREAM <bytes>` (R86). -/
def updateStream (bytes : List Byte) : List Instr := beats bytes.length bytes

/-- `NEW <seed>, <bytes>` (R87, 40_lifecycle.md R104). -/
def newHasher (seed : Word) (bytes : List Byte) : List Instr := .init seed :: updateStream bytes

/-- `HASH <bytes>, <seed>` (R88). -/
def hashProgram (bytes : List Byte) (seed : Word) : List Instr := newHasher seed bytes ++ [.digest]

end Sys2Proof.Machine
end

