-- ==== Sys2Proof/Machine/Assembler.lean ====
section
/-! DEFINITION. The assembler of 30_encoding.md R85 to R88: from one line of text, a list of characters, to the words of its
packets. What the spec leaves open about the text (white space, which characters a string may hold) is log entry 9. -/

namespace Sys2Proof.Machine

/-- One line, read but not yet checked (R85 to R88). -/
inductive AsmLine where
  | init (operand : Nat)
  | reset
  | update (bytes : List Byte)
  | digest
  | word (values : List Nat)
  | updateStream (bytes : List Byte)
  | new (seed : Nat) (bytes : List Byte)
  | hash (bytes : List Byte) (seed : Nat)
  deriving DecidableEq, Repr

/-- A u32 operand; the assembler refuses a value of 2^32 or more (R85). -/
def asmWord (n : Nat) : Option Word := if n < 2 ^ 32 then some (BitVec.ofNat 32 n) else none

/-- The words a line stands for, or none where the assembler refuses it (R85): an operand that is no u32, an UPDATE of more
than 16 bytes. Several words after one `.word` are the model's choice (DESIGN CHOICE, log entry 9). -/
def assembleLine : AsmLine → Option (List Word)
  | .init operand => (asmWord operand).map fun seed => encode (.init seed)
  | .reset => some (encode .reset)
  | .update bytes => if bytes.length ≤ 16 then some (encode (beat bytes)) else none
  | .digest => some (encode .digest)
  | .word values => values.mapM asmWord
  | .updateStream bytes => some (encodeAll (updateStream bytes))
  | .new seed bytes => (asmWord seed).map fun w => encodeAll (newHasher w bytes)
  | .hash bytes seed => (asmWord seed).map fun w => encodeAll (hashProgram bytes w)

/-- White space between the parts of a line. -/
def isSpace (c : Char) : Bool := c = ' ' || c = '\t'

/-- The text without the white space around it. -/
def trimText (cs : List Char) : List Char := ((cs.dropWhile isSpace).reverse.dropWhile isSpace).reverse

/-- The text before a comment, which starts at `;` (R85). A `;` inside a quoted string starts none. -/
def dropComment : Bool → List Char → List Char
  | _, [] => []
  | inString, c :: rest =>
    if c = '"' then c :: dropComment (!inString) rest
    else if c = ';' && !inString then []
    else c :: dropComment inString rest

/-- A digit's value, in base 16; letters in either case. -/
def digitValue (c : Char) : Option Nat :=
  if '0' ≤ c ∧ c ≤ '9' then some (c.toNat - '0'.toNat)
  else if 'a' ≤ c ∧ c ≤ 'f' then some (c.toNat - 'a'.toNat + 10)
  else if 'A' ≤ c ∧ c ≤ 'F' then some (c.toNat - 'A'.toNat + 10)
  else none

/-- A digit string in a base. Digits may be grouped with `_`, which has no meaning: 00_scope.md R9 says so of hexadecimal
literals, and that decimal digits may be grouped too is the model's choice (DESIGN CHOICE, log entry 9). -/
def digitsValue (base : Nat) : List Char → Nat → Option Nat
  | [], acc => some acc
  | '_' :: rest, acc => digitsValue base rest acc
  | c :: rest, acc =>
    match digitValue c with
    | some v => if v < base then digitsValue base rest (acc * base + v) else none
    | none => none

/-- A numeral. The model's choice (DESIGN CHOICE, log entry 9): it has at least one digit, so underscores alone are refused
like no character at all, and underscores may stand anywhere among the digits, first and last too. R9 says only that digits may
be grouped with `_`. -/
def numeralValue (base : Nat) (cs : List Char) : Option Nat :=
  if cs.any (· ≠ '_') then digitsValue base cs 0 else none

/-- A number: decimal, or `0x` hexadecimal (R85). Underscores alone (`_`, `0x_`) are no number: the model's choice, log entry 9. -/
def parseNumber (cs : List Char) : Option Nat :=
  match trimText cs with
  | '0' :: 'x' :: digits => numeralValue 16 digits
  | digits => numeralValue 10 digits

/-- The characters up to the closing quote, and the text after it. -/
def untilQuote : List Char → Option (List Char × List Char)
  | [] => none
  | '"' :: rest => some ([], rest)
  | c :: rest => (untilQuote rest).map fun r => (c :: r.1, r.2)

/-- One byte per character of a string, the character's ASCII code (R85). -/
def asciiBytes (cs : List Char) : Option (List Byte) :=
  cs.mapM fun c => if c.toNat < 128 then some (BitVec.ofNat 8 c.toNat) else none

/-- The bytes of a hexadecimal byte list, two digits each, white space between them (R85). -/
def hexBytes : List Char → Option (List Byte)
  | [] => some []
  | [c] => if isSpace c then some [] else none
  | c :: d :: rest =>
    if isSpace c then hexBytes (d :: rest)
    else
      match digitValue c, digitValue d, hexBytes rest with
      | some hi, some lo, some tail => some (BitVec.ofNat 8 (16 * hi + lo) :: tail)
      | _, _, _ => none

/-- `<bytes>`: `x"61 62 63"` or `"abc"` (R85), and the text after it. -/
def parseBytes (cs : List Char) : Option (List Byte × List Char) :=
  match trimText cs with
  | 'x' :: '"' :: rest =>
    match untilQuote rest with
    | some (inside, after) => (hexBytes inside).map fun bs => (bs, after)
    | none => none
  | '"' :: rest =>
    match untilQuote rest with
    | some (inside, after) => (asciiBytes inside).map fun bs => (bs, after)
    | none => none
  | _ => none

/-- `<bytes>` and nothing after it. -/
def parseOnlyBytes (cs : List Char) : Option (List Byte) :=
  match parseBytes cs with
  | some (bs, after) => if trimText after = [] then some bs else none
  | none => none

/-- The text split at its commas. -/
def splitCommas : List Char → List (List Char)
  | [] => [[]]
  | ',' :: rest => [] :: splitCommas rest
  | c :: rest =>
    match splitCommas rest with
    | first :: others => (c :: first) :: others
    | [] => [[c]]

/-- `NEW <seed>` or `NEW <seed>, <bytes>` (R87). -/
def parseNew (cs : List Char) : Option AsmLine :=
  let number := cs.takeWhile (· ≠ ',')
  match parseNumber number, cs.drop number.length with
  | some seed, [] => some (.new seed [])
  | some seed, _ :: rest => (parseOnlyBytes rest).map fun bs => .new seed bs
  | none, _ => none

/-- `HASH <bytes>, <seed>` (R88). -/
def parseHash (cs : List Char) : Option AsmLine :=
  match parseBytes cs with
  | some (bs, after) =>
    match trimText after with
    | ',' :: number => (parseNumber number).map fun seed => .hash bs seed
    | _ => none
  | none => none

/-- The line a mnemonic (upper case, R85) and its operand text make. -/
def parseCommand (mnemonic : List Char) (operand : List Char) : Option AsmLine :=
  if mnemonic = ['I', 'N', 'I', 'T'] then (parseNumber operand).map .init
  else if mnemonic = ['R', 'E', 'S', 'E', 'T'] then (if operand = [] then some .reset else none)
  else if mnemonic = ['U', 'P', 'D', 'A', 'T', 'E'] then (parseOnlyBytes operand).map .update
  else if mnemonic = ['D', 'I', 'G', 'E', 'S', 'T'] then (if operand = [] then some .digest else none)
  else if mnemonic = ['.', 'w', 'o', 'r', 'd'] then ((splitCommas operand).mapM parseNumber).map .word
  else if mnemonic = ['U', 'P', 'D', 'A', 'T', 'E', '_', 'S', 'T', 'R', 'E', 'A', 'M'] then
    (parseOnlyBytes operand).map .updateStream
  else if mnemonic = ['N', 'E', 'W'] then parseNew operand
  else if mnemonic = ['H', 'A', 'S', 'H'] then parseHash operand
  else none

/-- Assemble one line of text: none where the assembler refuses it, no words for a line that holds only a comment. -/
def assembleText (line : List Char) : Option (List Word) :=
  match trimText (dropComment false line) with
  | [] => some []
  | cs =>
    let mnemonic := cs.takeWhile fun c => !isSpace c
    match parseCommand mnemonic (trimText (cs.drop mnemonic.length)) with
    | some line => assembleLine line
    | none => none

/-- Assemble a program, one command per line (R85): the lines' words in order. -/
def assembleProgram : List (List Char) → Option (List Word)
  | [] => some []
  | line :: rest =>
    match assembleText line, assembleProgram rest with
    | some ws, some more => some (ws ++ more)
    | _, _ => none

end Sys2Proof.Machine
end

