-- ==== Sys2Proof/Machine/Platform.lean ====
section
/-! DEFINITION. A platform: several independent blocks (60_exceptions.md R211), each with one command channel that one or
more hosts send words on (20_memory.md R64). The block's own step does not see who sent a word. -/

namespace Sys2Proof.Machine

/-- A block as its hosts hold it: the host that last sent words on its command channel, and how many words of its result
channel have been read (10_state.md R29: the host reads the words in order). -/
structure Link where
  block : State
  lastSender : Option Nat
  wordsRead : Nat
  deriving DecidableEq, Repr

/-- Several blocks. They share nothing (R211). -/
structure Platform where
  links : List Link
  deriving DecidableEq, Repr

/-- The words of the last, incomplete packet of a word sequence that starts at a packet boundary (30_encoding.md R70, R72,
R83); none if the sequence ends at a packet boundary. Each turn takes a word, so a fuel of the length never runs out. -/
def openPacket : Nat → List Word → List Word
  | _, [] => []
  | 0, ws => ws
  | fuel + 1, cw :: operands =>
    if operands.length + 1 < packetLen cw then cw :: operands
    else openPacket fuel ((cw :: operands).drop (packetLen cw))

/-- The words that have reached a block end inside a packet. -/
def State.midPacket (s : State) : Bool := openPacket s.arrived.length s.arrived ≠ []

/-- A host sends words on a block's command channel. Whole packets of several hosts may alternate in any order; a host that
sends while another host's packet is unfinished is refused (20_memory.md R64). -/
def Link.send (host : Nat) (ws : List Word) (l : Link) : Host.Outcome Link Fault Refusal :=
  if ws = [] then .next l
  else if l.block.midPacket && l.lastSender ≠ some host then .refused .wordInterleaving
  else .next { l with block := l.block.deliver ws, lastSender := some host }

/-- The host reads the STATUS output (10_state.md R25, R30). -/
def Link.readStatus (l : Link) : Byte := l.block.status

/-- The host reads the next word of the result channel, none if it has read them all (10_state.md R29). Reading changes
nothing in the block (log entry 6). -/
def Link.readResult (l : Link) : Option Word × Link :=
  match l.block.results[l.wordsRead]? with
  | some r => (some r, { l with wordsRead := l.wordsRead + 1 })
  | none => (none, l)

/-- `k` reads of the result channel: the words they give, in order. -/
def Link.readResults : Nat → Link → List Word × Link
  | 0, l => ([], l)
  | k + 1, l =>
    match l.readResult with
    | (some r, m) => let later := m.readResults k; (r :: later.1, later.2)
    | (none, m) => m.readResults k

/-- One block of the platform takes a step. -/
def Platform.stepAt (p : Platform) (k : Fin p.links.length) : Host.Outcome Platform Fault Refusal :=
  match step p.links[k].block with
  | .next s' => .next { links := p.links.set k { p.links[k] with block := s' } }
  | .fault r => .fault r
  | .refused r => .refused r

/-- A host sends words to one block of the platform. -/
def Platform.sendTo (host : Nat) (p : Platform) (k : Fin p.links.length) (ws : List Word) :
    Host.Outcome Platform Fault Refusal :=
  match p.links[k].send host ws with
  | .next l' => .next { links := p.links.set k l' }
  | .fault r => .fault r
  | .refused r => .refused r

end Sys2Proof.Machine
end

