-- ==== Sys2Proof/Machine/Stream.lean ====
section
/-! DEFINITION. The block's function of the whole input stream, said without any command: the closed form of the state
(10_state.md R40) and the one-shot hash (43_finalize_tail_avalanche.md R179). No meaning calls these; statements compare the
block with them. -/

namespace Sys2Proof.Machine

/-- `B` applications of block_mix in stream order, block k being `s[16k .. 16k+16)` (10_state.md R40, 20_memory.md R59). -/
def mixBlocks (v : Lanes) (s : List Byte) (blocks : Nat) : Lanes :=
  (List.range blocks).foldl (fun acc k => blockMix acc (Block.ofList (s.drop (16 * k)))) v

/-- The datapath registers after the stream `s` under `seed` (10_state.md R40). This is R40's closed form for streams shorter
than 2^64 bytes, the ones the count register can hold (10_state.md R22). For a longer stream the spec gives no registers (an
UPDATE faults first, 41_carry_buffer_mux.md R122), and that the count here is then the length mod 2^64 is the model's choice
(DESIGN CHOICE, log entry 15). -/
def streamHasher (seed : Word) (s : List Byte) : Hasher :=
  { seed := seed
    lanes := mixBlocks (laneInit seed) s (s.length / 16)
    totalLen := BitVec.ofNat 64 s.length
    buf := Vector.ofFn fun j => s[16 * (s.length / 16) + j.val]?
    carryLen := BitVec.ofNat 4 (s.length % 16) }

/-- The one-shot `hash(data, seed)` (43_finalize_tail_avalanche.md R179), for data shorter than 2^64 bytes. For longer data
`HASH` faults and emits no word, so the spec gives no value: the value here is the model's choice (DESIGN CHOICE, log entry
15) and stands for nothing the block emits. -/
def xxh32 (data : List Byte) (seed : Word) : Word := intdigest (streamHasher seed data)

end Sys2Proof.Machine
end

