-- ==== Sys2Proof/Safety.lean ====
section
/-! DEFINITION. What a good state and a good run are, in the terms the statements use. -/

namespace Sys2Proof.Machine

/-- The legal STATUS values (10_state.md R25, R28): reserved bits 0, a CAUSE of 0 to 5, and CAUSE 0 exactly while FAULT is
0. -/
def StatusOk (st : Byte) : Prop :=
  reservedField st = 0 ∧ (causeField st).toNat ≤ 5 ∧ (faultBit st = false ↔ causeField st = 0)

/-- The decoder stands at a packet boundary or holds part of one packet, never a whole one (30_encoding.md R84). -/
def HeldOk (held : List Word) : Prop :=
  ∀ cw operands, held = cw :: operands → held.length < packetLen cw

/-- The carry buffer holds values at exactly the positions below `carry_len` (10_state.md R23). -/
def Hasher.BufOk (h : Hasher) : Prop := ∀ j : Fin 16, (h.buf[j]).isSome = true ↔ j.val < h.carryLen.toNat

/-- The datapath registers are those of some stream (10_state.md R40), of a length the counter can hold (R22). -/
def Hasher.OfStream (h : Hasher) : Prop :=
  ∃ stream : List Byte, stream.length < 2 ^ 64 ∧ h = streamHasher h.seed stream

/-- The invariant of the block: STATUS is legal, the decoder holds at most part of a packet, the registers of an initialised
block are those of some stream, and a block that was never initialised has emitted nothing (10_state.md R25 to R29, R40). It
does not say which stream: from 16 bytes up that leaves the lanes free. The statements UpdateExtendsStream,
BeatsAbsorbTheirBytes and HashProgramEmitsOneShotHash tie the registers to the bytes sent. -/
structure State.Inv (s : State) : Prop where
  status : StatusOk s.status
  held : HeldOk s.held
  stream : s.inited = true → s.hasher.OfStream
  silent : s.inited = false → s.results = []

/-- Two carry buffers agree on the valid positions: all a command can tell of them (10_state.md R36). -/
def SameValid (len : Nat) (b b' : CarryBuffer) : Prop := ∀ j : Fin 16, j.val < len → b[j] = b'[j]

/-- Two sets of datapath registers that differ at most in stale carry-buffer positions (10_state.md R36). -/
structure Hasher.Same (h h' : Hasher) : Prop where
  seed : h.seed = h'.seed
  lanes : h.lanes = h'.lanes
  totalLen : h.totalLen = h'.totalLen
  carryLen : h.carryLen = h'.carryLen
  buf : SameValid h.carryLen.toNat h.buf h'.buf

/-- Two blocks that no sequence of commands can tell apart: the same STATUS, results and command words, and, once they hold
values, the same registers but for stale carry-buffer positions (00_scope.md R14, 10_state.md R30, R36). -/
structure State.Alike (s s' : State) : Prop where
  status : s.status = s'.status
  results : s.results = s'.results
  held : s.held = s'.held
  channel : s.channel = s'.channel
  hasher : s.inited = true → s.hasher.Same s'.hasher

/-- The code of the first fault of a whole packet in a block that has not faulted, in the priority order of 60_exceptions.md
R202, read off the header word as a number: OP is `cw / 2^28` and N is `cw mod 32` (30_encoding.md R71). None if the packet
executes. -/
def firstFault (cw : Word) (s : State) : Option (BitVec 4) :=
  let op := cw.toNat / 2 ^ 28
  let arg := cw.toNat % 2 ^ 28
  if op = 0 ∨ 5 ≤ op then some 1
  else if (if op = 3 then arg / 32 else arg) ≠ 0 then some 2
  else if op = 3 ∧ 16 < arg % 32 then some 3
  else if op ≠ 1 ∧ s.inited = false then some 4
  else if op = 3 ∧ 2 ^ 64 - 1 < s.hasher.totalLen.toNat + arg % 32 then some 5
  else none

/-- A block that runs the commands it is sent: it has not faulted and INIT has executed (60_exceptions.md R204, R205). -/
def State.Ready (s : State) : Prop := s.faulted = false ∧ s.inited = true

/-- No whole packet has arrived: the block holds (30_encoding.md R84). -/
def State.Waiting (s : State) : Prop := ∀ cw operands, s.arrived = cw :: operands → operands.length + 1 < packetLen cw

/-- The state `k` steps on, if no step stops. -/
def stepMany (k : Nat) (s : State) : Host.Outcome State Fault Refusal := Host.Core.run core k s

/-- A successful end of a run: no fault has occurred (60_exceptions.md R204: a claim about a run takes STATUS.FAULT = 0 at
the end as a premise). -/
def State.Successful (s : State) : Prop := s.faulted = false

end Sys2Proof.Machine
end

