-- ==== Sys2Proof/Certificates/Slice0/Obligations.lean ====
section
/-! DEFINITION. The statements for the provers. Each docstring names the rules it formalises; OBLIGATIONS.json lists them. -/

open Sys2Proof Sys2Proof.Machine

/-! ### Power-on -/

/-- 70_reset_and_hazards.md R230: whatever the registers contain and whatever words wait on the host's channel, a block after
power-on reset has STATUS 0x00, an empty result channel, no partial packet held, and no datapath register and no carry-buffer
position that holds a value; the model's `State.reset` is such a state; and nothing but power-on reset clears FAULT or INITED.
That no word waits at `State.reset` is the model's choice (log entry 12): R230 does not speak of the host's words. -/
def Obligations.PowerOnState : Prop :=
  (∀ seed lanes totalLen carryLen waiting,
    let s := State.powerOn seed lanes totalLen carryLen waiting
    s.status = 0#8 ∧ s.results = [] ∧ s.held = [] ∧ s.datapath? = none ∧ ∀ j : Fin 16, s.hasher.buf[j] = none) ∧
  (∃ seed lanes totalLen carryLen, State.reset = State.powerOn seed lanes totalLen carryLen []) ∧
  ∀ s t : State, step s = .next t → (s.faulted = true → t.faulted = true) ∧ (s.inited = true → t.inited = true)

/-- The block's invariant holds right after power-on reset, whatever the registers contain and whatever words wait. What they
contain at `State.reset` is the model's choice (log entries 1, 12), on which nothing here rests. -/
def Obligations.PowerOnMeetsInvariant : Prop :=
  State.reset.Inv ∧
  ∀ seed lanes totalLen carryLen waiting, (State.powerOn seed lanes totalLen carryLen waiting).Inv

/-- 70_reset_and_hazards.md R231: the first command after power-on reset must be INIT. RESET, UPDATE (of a legal count) and
DIGEST fault with NOT_INITIALISED, and every packet after that changes neither the registers nor the outputs. -/
def Obligations.FirstCommandMustBeInit : Prop :=
  ∀ seed lanes totalLen carryLen (i : Instr) (later : List Word), (∀ sd, i ≠ .init sd) → i.WellFormed →
    let s := State.powerOn seed lanes totalLen carryLen (encode i ++ later)
    ∀ k, ∃ t, stepMany (k + 1) s = .next t ∧ t.status = 0x41#8 ∧ t.results = [] ∧ t.hasher = s.hasher

/-! ### Encoding -/

/-- 30_encoding.md R73 to R77, R83: the decoder reads back every well-formed command from its packet, with every operand, and
leaves the words after the packet. -/
def Obligations.DecodeInvertsEncode : Prop :=
  ∀ (i : Instr) (rest : List Word), i.WellFormed → decode (encode i ++ rest) = .command i rest

/-- 30_encoding.md R82: whatever the decoder reads as a command is that command's packet, and the command is well formed. -/
def Obligations.EncodeInvertsDecode : Prop :=
  ∀ (ws rest : List Word) (i : Instr), decode ws = .command i rest → i.WellFormed ∧ ws = encode i ++ rest

/-- 30_encoding.md R73 to R77: packets written out from their formats decode to the commands they stand for, and words of
each kind that is no command are rejected by name (R78 to R80). A sanity statement. -/
def Obligations.PacketsDecodeAsWritten : Prop :=
  decode [0x10000000, 0x9E3779B1] = .command (.init 0x9E3779B1) [] ∧
  decode [0x20000000] = .command .reset [] ∧
  decode [0x3000000A, 0x03020100, 0x07060504, 0x00000908, 0x00000000] =
    .command (.update 10 0x03020100 0x07060504 0x00000908 0x00000000) [] ∧
  decode [0x40000000, 0x5ABCDEF0] = .command .digest [0x5ABCDEF0] ∧
  decode [0x00000000] = .rejected .illegalOpcode ∧
  decode [0x40000001] = .rejected .reservedBits ∧
  decode [0x30000011, 0, 0, 0, 0] = .rejected .badCount ∧
  decode [0x30000003, 0x00636261] = .rejected .incomplete

/-- 30_encoding.md R72: the opcode map. The packet's length and the command it may be follow from OP alone, for each of the 16
OP values and every ARG. -/
def Obligations.OpcodeMap : Prop :=
  ∀ (op : BitVec 4) (arg : BitVec 28),
    packetLen (op ++ arg) = (if op.toNat = 1 then 2 else if op.toNat = 3 then 5 else 1) ∧
    ∀ (operands rest : List Word) (i : Instr), decode ((op ++ arg) :: operands) = .command i rest →
      match i with
      | .init _ => op.toNat = 1
      | .reset => op.toNat = 2
      | .update _ _ _ _ _ => op.toNat = 3
      | .digest => op.toNat = 4

/-- 30_encoding.md R57, R76: byte 4q to 4q + 3 of an UPDATE packet, joined little-endian, are data word `D[q]` itself. -/
def Obligations.DataBytesJoinToDataWords : Prop :=
  ∀ (d0 d1 d2 d3 : Word) (q : Nat),
    le32 (dataByte d0 d1 d2 d3 (4 * q)) (dataByte d0 d1 d2 d3 (4 * q + 1)) (dataByte d0 d1 d2 d3 (4 * q + 2))
      (dataByte d0 d1 d2 d3 (4 * q + 3)) = dataWord d0 d1 d2 d3 q

/-- 30_encoding.md R85, R76: the beat assembled from 0 to 16 bytes is a legal UPDATE that carries exactly those bytes, and
zeros in the positions above them. -/
def Obligations.BeatCarriesItsBytes : Prop :=
  ∀ bytes : List Byte, bytes.length ≤ 16 →
    ∃ n d0 d1 d2 d3, beat bytes = .update n d0 d1 d2 d3 ∧ (beat bytes).WellFormed ∧ n.toNat = bytes.length ∧
      dataBytes n d0 d1 d2 d3 = bytes ∧ ∀ k, bytes.length ≤ k → k < 16 → dataByte d0 d1 d2 d3 k = 0

/-! ### The step -/

/-- 30_encoding.md R83: when the words that have arrived begin with the packet of a well-formed command, the step is `exec` of
that command on the state with the packet taken off the channel and no word held. -/
def Obligations.StepRunsDecodedCommand : Prop :=
  ∀ (s : State) (i : Instr) (rest : List Word), i.WellFormed → s.arrived = encode i ++ rest →
    step s = exec i { s with held := [], channel := rest }

/-- The machine never stops: every step, and every command in every state, answers a next state. That a fault
(60_exceptions.md R203) and a hold (30_encoding.md R84) are next states and not stops is the model's reading (log entry 13,
DEDUCED), and that a hold is a step at all its choice (log entry 3, DESIGN CHOICE). -/
def Obligations.EveryStepAnswersNext : Prop :=
  (∀ s : State, ∃ t, step s = .next t) ∧ ∀ (i : Instr) (s : State), ∃ t, exec i s = .next t

/-- 30_encoding.md R84: while a packet is not complete the block holds the words it has, and the registers, STATUS and the
result channel do not change; the hold lasts until missing words come, and a command whose packet arrives in two parts has, after
the second part, the effect it has when the packet arrives whole. -/
def Obligations.IncompletePacketIsHeld : Prop :=
  (∀ s : State, s.Waiting → ∀ k, ∃ t, stepMany (k + 1) s = .next t ∧ t = { s with held := s.held ++ s.channel, channel := [] }) ∧
  ∀ (i : Instr) (part rest : List Word) (s : State), i.WellFormed → encode i = part ++ rest → rest ≠ [] →
    s.arrived = part →
    ∃ t, step s = .next t ∧ t.outputs = s.outputs ∧ t.hasher = s.hasher ∧
      step (t.deliver rest) = exec i { s with held := [], channel := [] }

/-- 60_exceptions.md R202, R203: a whole packet that faults in a block that has not faulted writes the code of its first fault,
in the order of R202, into STATUS.CAUSE, sets FAULT, and changes nothing else; the packet is consumed. A packet without a fault
leaves FAULT 0. When the block has already faulted no check runs and STATUS is unchanged. -/
def Obligations.FirstFaultIsReported : Prop :=
  ∀ (s : State) (cw : Word) (operands : List Word), s.arrived = cw :: operands → packetLen cw ≤ operands.length + 1 →
    ∃ t, step s = .next t ∧
      (s.faulted = false →
        (∀ code, firstFault cw s = some code →
          t = { s with status := code ++ s.status.extractLsb' 1 3 ++ 1#1, held := [], channel := s.arrived.drop (packetLen cw) }) ∧
        (firstFault cw s = none → t.faulted = false)) ∧
      (s.faulted = true → t.status = s.status)

/-- 60_exceptions.md R204: a faulted block discards every packet. No register, no STATUS bit and no result changes, only the
packet's words are consumed, their number found from OP; no command of any kind has an effect; and the block stays so for the
rest of the run. -/
def Obligations.FaultedBlockDiscards : Prop :=
  ∀ s : State, s.faulted = true →
    (∀ i : Instr, exec i s = .next s) ∧
    (∀ cw operands, s.arrived = cw :: operands → packetLen cw ≤ operands.length + 1 →
      step s = .next { s with held := [], channel := s.arrived.drop (packetLen cw) }) ∧
    ∀ k, ∃ t, stepMany k s = .next t ∧ t.hasher = s.hasher ∧ t.outputs = s.outputs

/-- 70_reset_and_hazards.md R236 ("a bounded number of internal steps"), 20_memory.md R61: every whole packet is finished in one
step, whatever it holds; so all the whole packets among `n` words that have arrived are finished within `n` steps, and the
block then waits for words. That a packet is one step, and so the numbers one and `n`, is the model's choice (log entry 3). -/
def Obligations.EveryPacketFinishes : Prop :=
  (∀ (s : State) (cw : Word) (operands : List Word), s.arrived = cw :: operands → packetLen cw ≤ operands.length + 1 →
    ∃ t, step s = .next t ∧ t.held = [] ∧ t.channel = s.arrived.drop (packetLen cw)) ∧
  ∀ s : State, ∃ t, stepMany s.arrived.length s = .next t ∧ t.Waiting

/-! ### INIT and RESET -/

/-- 40_lifecycle.md R102: INIT in a block that has not faulted, initialised or not, sets the seed, the lanes of R100, the count
and `carry_len` 0, no position of the carry buffer holding a value, and INITED; every other bit of STATUS, the result channel
and the command words are unchanged. -/
def Obligations.InitResult : Prop :=
  ∀ (s : State) (seed : Word), s.faulted = false →
    ∃ t, exec (.init seed) s = .next t ∧
      t.hasher =
        { seed := seed
          lanes := { v1 := seed + 0x9E3779B1#32 + 0x85EBCA77#32, v2 := seed + 0x85EBCA77#32, v3 := seed,
                     v4 := seed - 0x9E3779B1#32 }
          totalLen := 0#64
          buf := Vector.replicate 16 none
          carryLen := 0#4 } ∧
      (∀ k, k < 8 → t.status.getLsbD k = if k = 1 then true else s.status.getLsbD k) ∧
      t.results = s.results ∧ t.held = s.held ∧ t.channel = s.channel

/-- 40_lifecycle.md R103, R101: RESET in a ready block sets the lanes of R100 from the stored seed, the count and `carry_len` to
0, and leaves no position of the carry buffer holding a value; the seed, STATUS, the result channel and the command words are
unchanged. -/
def Obligations.ResetResult : Prop :=
  ∀ s : State, s.Ready →
    exec .reset s = .next
      { s with
        hasher :=
          { seed := s.hasher.seed
            lanes := { v1 := s.hasher.seed + 0x9E3779B1#32 + 0x85EBCA77#32, v2 := s.hasher.seed + 0x85EBCA77#32,
                       v3 := s.hasher.seed, v4 := s.hasher.seed - 0x9E3779B1#32 }
            totalLen := 0#64
            buf := Vector.replicate 16 none
            carryLen := 0#4 } }

/-- 40_lifecycle.md R106: two RESETs in a row give the same state as one, in every state. -/
def Obligations.ResetIsIdempotent : Prop :=
  ∀ s t : State, exec .reset s = .next t → exec .reset t = .next t

/-- 40_lifecycle.md R105: a RESET after any history leaves the datapath registers and STATUS that `INIT seed` with the same seed
leaves in a block fresh from power-on. -/
def Obligations.ResetEqualsFreshInit : Prop :=
  ∀ (s : State) (seed : Word) lanes totalLen carryLen waiting, s.Ready → StatusOk s.status →
    let fresh := State.powerOn seed lanes totalLen carryLen waiting
    ∃ t u, exec .reset s = .next t ∧ exec (.init s.hasher.seed) fresh = .next u ∧
      t.hasher = u.hasher ∧ t.status = u.status

/-- 40_lifecycle.md R107: only an INIT packet changes the seed, and it sets it to its operand. -/
def Obligations.OnlyInitWritesSeed : Prop :=
  ∀ s t : State, step s = .next t → t.hasher.seed ≠ s.hasher.seed →
    s.faulted = false ∧ ∃ seed rest, s.arrived = encode (.init seed) ++ rest ∧ t.hasher.seed = seed

/-! ### UPDATE -/

/-- 41_carry_buffer_mux.md R121, R123: what an UPDATE of N bytes that executes leaves in every register. Byte k of the packet is
bits [8k+7:8k] of `D3:D2:D1:D0` (30_encoding.md R76). The count grows by N and `carry_len` is `(carry_len + N) mod 16`. If
`carry_len + N < 16` the bytes land behind the pending ones and the lanes are unchanged. Else the pending bytes and the first
`16 − carry_len` bytes of the packet are mixed as one block, each lane from its own four bytes, and the rest is kept at the start
of the carry buffer, no position above it holding a value. The seed, STATUS, the result channel and the command words are
unchanged. -/
def Obligations.UpdateResult : Prop :=
  ∀ (s : State) (n : BitVec 5) (d0 d1 d2 d3 : Word), s.Ready → n.toNat ≤ 16 →
    s.hasher.totalLen.toNat + n.toNat ≤ 2 ^ 64 - 1 →
    ∃ t, exec (.update n d0 d1 d2 d3) s = .next t ∧
      let c := s.hasher.carryLen.toNat
      let byte : Nat → Byte := fun k => (d3 ++ d2 ++ d1 ++ d0).extractLsb' (8 * k) 8
      let blk : Nat → Byte := fun j => if j < c then s.hasher.bufByte j else byte (j - c)
      t.status = s.status ∧ t.results = s.results ∧ t.held = s.held ∧ t.channel = s.channel ∧
      t.hasher.seed = s.hasher.seed ∧
      t.hasher.totalLen.toNat = s.hasher.totalLen.toNat + n.toNat ∧
      t.hasher.carryLen.toNat = (c + n.toNat) % 16 ∧
      (c + n.toNat < 16 →
        t.hasher.lanes = s.hasher.lanes ∧
        ∀ j : Fin 16, t.hasher.buf[j] = if c ≤ j.val ∧ j.val < c + n.toNat then some (byte (j.val - c)) else s.hasher.buf[j]) ∧
      (16 ≤ c + n.toNat →
        t.hasher.lanes.v1 = round32 s.hasher.lanes.v1 (le32 (blk 0) (blk 1) (blk 2) (blk 3)) ∧
        t.hasher.lanes.v2 = round32 s.hasher.lanes.v2 (le32 (blk 4) (blk 5) (blk 6) (blk 7)) ∧
        t.hasher.lanes.v3 = round32 s.hasher.lanes.v3 (le32 (blk 8) (blk 9) (blk 10) (blk 11)) ∧
        t.hasher.lanes.v4 = round32 s.hasher.lanes.v4 (le32 (blk 12) (blk 13) (blk 14) (blk 15)) ∧
        ∀ j : Fin 16, t.hasher.buf[j] = if j.val < c + n.toNat - 16 then some (byte (16 - c + j.val)) else none)

/-- 41_carry_buffer_mux.md R126: an UPDATE of no bytes changes nothing in a ready block, and still faults while INITED = 0. -/
def Obligations.EmptyUpdateChangesNothing : Prop :=
  (∀ h : Hasher, h.updateAlg [] = h) ∧
  ∀ (s : State) (d0 d1 d2 d3 : Word),
    (s.Ready → exec (.update 0 d0 d1 d2 d3) s = .next s) ∧
    (s.faulted = false → s.inited = false → exec (.update 0 d0 d1 d2 d3) s = .next (s.raiseFault .notInitialised))

/-- 30_encoding.md R81: the bytes of an UPDATE packet at positions from N up have no effect, whatever they hold. -/
def Obligations.UnusedDataBytesAreIgnored : Prop :=
  ∀ (s : State) (n : BitVec 5) (d0 d1 d2 d3 e0 e1 e2 e3 : Word),
    (∀ k, k < n.toNat → (d3 ++ d2 ++ d1 ++ d0).extractLsb' (8 * k) 8 = (e3 ++ e2 ++ e1 ++ e0).extractLsb' (8 * k) 8) →
    exec (.update n d0 d1 d2 d3) s = exec (.update n e0 e1 e2 e3) s

/-- 41_carry_buffer_mux.md R125: absorbing a, then b, leaves every datapath register as absorbing `a ++ b` does, from any
registers and for byte sequences of any lengths; so does any split of the input. R125 says it of a total below 2^64 bytes; past
that the count wraps, which is the model's choice (log entry 15). -/
def Obligations.ChunkingIndependence : Prop :=
  (∀ (h : Hasher) (a b : List Byte), (h.updateAlg a).updateAlg b = h.updateAlg (a ++ b)) ∧
  ∀ (h : Hasher) (chunks : List (List Byte)),
    chunks.foldl (fun acc d => acc.updateAlg d) h = h.updateAlg chunks.flatten

/-- 10_state.md R40: update_alg takes the registers of the stream s to the registers of the stream s followed by its input, the
closed form that names no command. The spec has streams shorter than 2^64 bytes only; past that the count wraps, which is the
model's choice (log entry 15). -/
def Obligations.UpdateExtendsStream : Prop :=
  ∀ (seed : Word) (s d : List Byte), (streamHasher seed s).updateAlg d = streamHasher seed (s ++ d)

/-- 30_encoding.md R86, 41_carry_buffer_mux.md R125: a run of UPDATE beats of 0 to 16 bytes each, sent to a ready block whose
count can take them, leaves the registers one update_alg of all the bytes leaves, and changes neither STATUS nor the results. -/
def Obligations.BeatsAbsorbTheirBytes : Prop :=
  ∀ (s : State) (chunks : List (List Byte)) (rest : List Word), s.Ready → (∀ d ∈ chunks, d.length ≤ 16) →
    s.hasher.totalLen.toNat + chunks.flatten.length ≤ 2 ^ 64 - 1 →
    s.arrived = encodeAll (chunks.map beat) ++ rest →
    ∃ t, stepMany chunks.length s = .next t ∧ t.hasher = s.hasher.updateAlg chunks.flatten ∧ t.outputs = s.outputs ∧
      t.arrived = rest

/-- 30_encoding.md R86: `UPDATE_STREAM` expands to the 16-byte beats of its data in order, then one beat of the last
`n mod 16` bytes if there are any. -/
def Obligations.UpdateStreamExpansion : Prop :=
  ∀ bytes : List Byte,
    updateStream bytes =
      (List.range (bytes.length / 16)).map (fun k => beat ((bytes.drop (16 * k)).take 16)) ++
        (if bytes.length % 16 = 0 then [] else [beat (bytes.drop (16 * (bytes.length / 16)))])

/-! ### block_mixer and finalizer -/

/-- 42_block_mixer.md R150: for a fixed input word the lane round is a bijection of the lane value. -/
def Obligations.LaneRoundIsBijective : Prop := ∀ w : Word, Function.Bijective fun acc => round32 acc w

/-- 42_block_mixer.md R151, R153: lane l's new value depends only on its old value and on bytes 4(l−1) to 4(l−1)+3 of the
block. -/
def Obligations.LanesAreIndependent : Prop :=
  ∀ (v v' : Lanes) (b b' : Block),
    (v.v1 = v'.v1 → (∀ j : Fin 16, j.val / 4 = 0 → b[j] = b'[j]) → (blockMix v b).v1 = (blockMix v' b').v1) ∧
    (v.v2 = v'.v2 → (∀ j : Fin 16, j.val / 4 = 1 → b[j] = b'[j]) → (blockMix v b).v2 = (blockMix v' b').v2) ∧
    (v.v3 = v'.v3 → (∀ j : Fin 16, j.val / 4 = 2 → b[j] = b'[j]) → (blockMix v b).v3 = (blockMix v' b').v3) ∧
    (v.v4 = v'.v4 → (∀ j : Fin 16, j.val / 4 = 3 → b[j] = b'[j]) → (blockMix v b).v4 = (blockMix v' b').v4)

/-- 43_finalize_tail_avalanche.md R174: avalanche is a bijection on u32. -/
def Obligations.AvalancheIsBijective : Prop := Function.Bijective avalanche

/-- 43_finalize_tail_avalanche.md R170 to R176: DIGEST in a ready block appends one word to the result channel and changes
nothing else. The word: converge by the full count, add its low 32 bits, fold in the `carry_len div 4` little-endian tail words at
buffer offsets 0, 4, 8 and the `carry_len mod 4` bytes after them (20_memory.md R60), avalanche. -/
def Obligations.DigestResult : Prop :=
  ∀ s : State, s.Ready →
    let h := s.hasher
    let c := h.carryLen.toNat
    let start : Word :=
      if 16 ≤ h.totalLen.toNat then
        rotl32 h.lanes.v1 1 + rotl32 h.lanes.v2 7 + rotl32 h.lanes.v3 12 + rotl32 h.lanes.v4 18
      else h.lanes.v3 + 0x165667B1#32
    let counted : Word := start + BitVec.ofNat 32 h.totalLen.toNat
    let afterWords : Word :=
      (List.range (c / 4)).foldl (fun acc k =>
        rotl32 (acc + le32 (h.bufByte (4 * k)) (h.bufByte (4 * k + 1)) (h.bufByte (4 * k + 2)) (h.bufByte (4 * k + 3))
          * 0xC2B2AE3D#32) 17 * 0x27D4EB2F#32) counted
    let afterBytes : Word :=
      (List.range (c % 4)).foldl (fun acc k =>
        rotl32 (acc + (h.bufByte (4 * (c / 4) + k)).setWidth 32 * 0x165667B1#32) 11 * 0x9E3779B1#32) afterWords
    let a : Word := (afterBytes ^^^ (afterBytes >>> 15)) * 0x85EBCA77#32
    let b : Word := (a ^^^ (a >>> 13)) * 0xC2B2AE3D#32
    exec .digest s = .next { s with results := s.results ++ [b ^^^ (b >>> 16)] }

/-- 20_memory.md R63, 43_finalize_tail_avalanche.md R176: a DIGEST right after a DIGEST emits the same word again. -/
def Obligations.DigestRepeats : Prop :=
  ∀ s : State, s.Ready →
    ∃ (t : State) (r : Word), exec .digest s = .next t ∧ t.results = s.results ++ [r] ∧
      exec .digest t = .next { t with results := t.results ++ [r] }

/-- 10_state.md R37: two counts that agree in their low 32 bits and on the test `≥ 16` give the same digest. -/
def Obligations.DigestIgnoresHighCount : Prop :=
  ∀ (h : Hasher) (t : TotalLen), h.totalLen.toNat % 2 ^ 32 = t.toNat % 2 ^ 32 →
    (16 ≤ h.totalLen.toNat ↔ 16 ≤ t.toNat) → intdigest { h with totalLen := t } = intdigest h

/-- 20_memory.md R55, R56, 43_finalize_tail_avalanche.md R177, R178: the hexdigest is eight characters, the two lowercase hexadecimal
digits of each of the four big-endian digest bytes in order (a digit up to 9 has the code 0x30 + x, a letter 0x61 + (x − 10)),
and the word can be read back from either view. R56 itself derives that the hexdigest is the hex of the digest bytes; that
either view determines the word is a consequence. -/
def Obligations.HexdigestIsHexOfDigestBytes : Prop :=
  ∀ r : Word,
    digestBytes r = (List.range 4).map (fun k => BitVec.ofNat 8 (r.toNat / 2 ^ (24 - 8 * k))) ∧
    hexdigest r = (digestBytes r).flatMap (fun b => [hexchar (b.extractLsb' 4 4), hexchar (b.extractLsb' 0 4)]) ∧
    hexdigest r = (List.range 8).map (fun k =>
      let x := r.toNat / 2 ^ (28 - 4 * k) % 16
      BitVec.ofNat 8 (if x ≤ 9 then 0x30 + x else 0x61 + (x - 10))) ∧
    ∀ r' : Word, (digestBytes r = digestBytes r' → r = r') ∧ (hexdigest r = hexdigest r' → r = r')

/-! ### Frames and whole-machine rules -/

/-- 10_state.md R39, the table of which command writes which register, for every command in every state. -/
def Obligations.CommandsWriteOnlyTheirRegisters : Prop :=
  ∀ (i : Instr) (s t : State), exec i s = .next t →
    t.held = s.held ∧ t.channel = s.channel ∧
    reservedField t.status = reservedField s.status ∧
    (s.inited = true → t.inited = true) ∧
    (t.faulted = true → t.hasher = s.hasher ∧ t.results = s.results ∧ t.inited = s.inited) ∧
    match i with
    | .init _ => t.results = s.results ∧ t.faulted = s.faulted ∧ causeField t.status = causeField s.status
    | .reset => t.results = s.results ∧ t.hasher.seed = s.hasher.seed ∧ (t.faulted = false → t.status = s.status)
    | .update n _ _ _ _ =>
      t.results = s.results ∧ t.hasher.seed = s.hasher.seed ∧ (t.faulted = false → t.status = s.status) ∧
      (s.hasher.carryLen.toNat + n.toNat < 16 → t.hasher.lanes = s.hasher.lanes)
    | .digest => t.hasher = s.hasher ∧ (t.faulted = false → t.status = s.status ∧ ∃ r, t.results = s.results ++ [r])

/-- 60_exceptions.md R201, R202, R205, 30_encoding.md R80, 41_carry_buffer_mux.md R122: how a command of a live block faults. RESET, UPDATE and DIGEST
before INIT record NOT_INITIALISED (4); an UPDATE of more than 16 bytes records BAD_COUNT (3) first; an UPDATE whose bytes do not
fit the count records LENGTH_OVERFLOW (5). FAULT is set and nothing else changes. That `exec` itself raises BAD_COUNT, for an
UPDATE the decoder already refuses, is the model's reading (log entry 7, DEDUCED). -/
def Obligations.FaultingCommandsChangeOnlyStatus : Prop :=
  ∀ (s : State) (n : BitVec 5) (d0 d1 d2 d3 : Word), s.faulted = false →
    let faultedWith : BitVec 4 → State := fun code => { s with status := code ++ s.status.extractLsb' 1 3 ++ 1#1 }
    (s.inited = false → exec .reset s = .next (faultedWith 4) ∧ exec .digest s = .next (faultedWith 4)) ∧
    (16 < n.toNat → exec (.update n d0 d1 d2 d3) s = .next (faultedWith 3)) ∧
    (n.toNat ≤ 16 → s.inited = false → exec (.update n d0 d1 d2 d3) s = .next (faultedWith 4)) ∧
    (n.toNat ≤ 16 → s.inited = true → 2 ^ 64 - 1 < s.hasher.totalLen.toNat + n.toNat →
      exec (.update n d0 d1 d2 d3) s = .next (faultedWith 5))

/-- 10_state.md R26, R27, R28: no step clears FAULT or INITED; INITED is set only by an INIT packet; CAUSE changes only in the
step that sets FAULT. -/
def Obligations.StatusBitsAreSticky : Prop :=
  ∀ s t : State, step s = .next t →
    (s.faulted = true → t.status = s.status) ∧
    (s.inited = true → t.inited = true) ∧
    (s.inited = false → t.inited = true → ∃ seed rest, s.arrived = encode (.init seed) ++ rest) ∧
    (causeField t.status ≠ causeField s.status → s.faulted = false ∧ t.faulted = true)

/-- 10_state.md R29, 70_reset_and_hazards.md R234: a step emits nothing, or exactly one word at the end of the result channel:
then the packet was a DIGEST, the block was ready, and the word is its digest. -/
def Obligations.OnlyDigestEmits : Prop :=
  ∀ s t : State, step s = .next t →
    t.results = s.results ∨
    (s.Ready ∧ (∃ rest, s.arrived = encode .digest ++ rest) ∧ t.results = s.results ++ [intdigest s.hasher])

/-- 10_state.md R33: a step that changes the lanes is an INIT or a RESET, which leave the lanes of R100, or an UPDATE that
completes a block, which leaves one block_mix of the lanes, of the block made of the pending bytes and the first bytes of the
packet. -/
def Obligations.LanesChangeOnlyByMixingOrReset : Prop :=
  ∀ s t : State, step s = .next t → t.hasher.lanes ≠ s.hasher.lanes →
    ((∃ seed rest, s.arrived = encode (.init seed) ++ rest) ∧ t.hasher.lanes = laneInit t.hasher.seed) ∨
    ((∃ rest, s.arrived = encode .reset ++ rest) ∧ t.hasher.lanes = laneInit s.hasher.seed) ∨
    ∃ n d0 d1 d2 d3 rest, s.arrived = encode (.update n d0 d1 d2 d3) ++ rest ∧
      16 ≤ s.hasher.carryLen.toNat + n.toNat ∧
      t.hasher.lanes = blockMix s.hasher.lanes (Block.ofList (s.hasher.validBytes ++ dataBytes n d0 d1 d2 d3))

/-- 10_state.md R25, R28, R32, R34, R40: every step keeps the block's invariant, from every state that meets it: STATUS legal,
at most part of a packet held, the registers of an initialised block those of some stream, nothing emitted before INIT. -/
def Obligations.StepKeepsInvariant : Prop := ∀ s t : State, s.Inv → step s = .next t → t.Inv

/-- 10_state.md R23, R24, R32, R34, R40: what the invariant says of an initialised block: `carry_len` is the count modulo 16,
exactly the positions below it hold values, and before the first 16 bytes the lanes are those of R100. -/
def Obligations.InvariantBoundsTheBuffer : Prop :=
  ∀ s : State, s.Inv → s.inited = true →
    s.hasher.carryLen.toNat = s.hasher.totalLen.toNat % 16 ∧ s.hasher.BufOk ∧
    (s.hasher.totalLen.toNat < 16 → s.hasher.lanes = laneInit s.hasher.seed)

/-- 43_finalize_tail_avalanche.md R180: for a short stream converge gives `seed +32 P5`. -/
def Obligations.ShortStreamConvergesFromSeed : Prop :=
  ∀ s : State, s.Inv → s.inited = true → s.hasher.totalLen.toNat < 16 →
    s.hasher.lanes.v3 = s.hasher.seed ∧ converge s.hasher = s.hasher.seed + 0x165667B1#32

/-- 10_state.md R36, 00_scope.md R14: one step of two blocks that differ at most in stale carry-buffer positions, or in the
registers of a block that was never initialised, leaves two blocks that differ at most so, with equal outputs. -/
def Obligations.StaleContentsAreUnobservable : Prop :=
  ∀ s s' : State, s.Alike s' →
    ∃ t t', step s = .next t ∧ step s' = .next t' ∧ t.Alike t' ∧ t.outputs = t'.outputs

/-- 00_scope.md R14, 60_exceptions.md R205: no rule ever reads a register that holds no value. Two blocks with different contents
at power-on that are sent the same words show the same STATUS and the same results after any number of steps. -/
def Obligations.PowerOnContentsAreUnobservable : Prop :=
  ∀ seed lanes totalLen carryLen seed' lanes' totalLen' carryLen' waiting (k : Nat),
    ∃ t t', stepMany k (State.powerOn seed lanes totalLen carryLen waiting) = .next t ∧
      stepMany k (State.powerOn seed' lanes' totalLen' carryLen' waiting) = .next t' ∧ t.outputs = t'.outputs

/-- 30_encoding.md R88, 43_finalize_tail_avalanche.md R179: `HASH data, seed`, sent to a block that has not faulted, emits exactly
one word, the one-shot hash of the data, and leaves the registers of the data's stream, without a fault; for every data shorter
than 2^64 bytes and every seed. -/
def Obligations.HashProgramEmitsOneShotHash : Prop :=
  ∀ (s : State) (data : List Byte) (seed : Word) (rest : List Word), s.faulted = false → data.length < 2 ^ 64 →
    s.arrived = encodeAll (hashProgram data seed) ++ rest →
    ∃ t, stepMany (hashProgram data seed).length s = .next t ∧ t.results = s.results ++ [xxh32 data seed] ∧
      t.hasher = streamHasher seed data ∧ t.Successful ∧ t.arrived = rest

/-! ### Assembler, instances and hosts -/

/-- 30_encoding.md R85 to R88: the packets the assembler writes for each kind of line, and the operands it refuses. `INIT`,
`NEW` and `HASH` refuse a seed of 2^32 or more, `.word` a value of 2^32 or more, `UPDATE` more than 16 bytes. Data word q of an
`UPDATE` is bytes 4q to 4q + 3 joined little-endian, 0x00 where there is none. R85 gives `.word` one word: that a line may list
several, and that a value of 2^32 or more is refused, is the model's choice (log entry 9). -/
def Obligations.AssemblerPackets : Prop :=
  (∀ k, assembleLine (.init k) = if k < 2 ^ 32 then some [0x10000000, BitVec.ofNat 32 k] else none) ∧
  assembleLine .reset = some [0x20000000] ∧ assembleLine .digest = some [0x40000000] ∧
  (∀ bytes, bytes.length ≤ 16 →
    let word : Nat → Word := fun q =>
      le32 (bytes.getD (4 * q) 0) (bytes.getD (4 * q + 1) 0) (bytes.getD (4 * q + 2) 0) (bytes.getD (4 * q + 3) 0)
    assembleLine (.update bytes) = some [0x30000000 + BitVec.ofNat 32 bytes.length, word 0, word 1, word 2, word 3]) ∧
  (∀ bytes, 16 < bytes.length → assembleLine (.update bytes) = none) ∧
  (∀ values, assembleLine (.word values) =
    if ∀ v ∈ values, v < 2 ^ 32 then some (values.map (BitVec.ofNat 32)) else none) ∧
  (∀ bytes, assembleLine (.updateStream bytes) = some (encodeAll (updateStream bytes))) ∧
  (∀ k bytes, assembleLine (.new k bytes) =
    if k < 2 ^ 32 then some ([0x10000000, BitVec.ofNat 32 k] ++ encodeAll (updateStream bytes)) else none) ∧
  ∀ k bytes, assembleLine (.hash bytes k) =
    if k < 2 ^ 32 then some ([0x10000000, BitVec.ofNat 32 k] ++ encodeAll (updateStream bytes) ++ [0x40000000]) else none

/-- 60_exceptions.md R211: a step of one block of a platform is that block's own step, words sent to one block reach that block
alone, and both leave every other block as it was. -/
def Obligations.InstancesAreIndependent : Prop :=
  ∀ (p : Platform) (k : Fin p.links.length),
    (∀ t : State, step p.links[k].block = .next t →
      ∃ q, p.stepAt k = .next q ∧ q.links.length = p.links.length ∧
        (q.links[k.val]?).map Link.block = some t ∧ ∀ j, j ≠ k.val → q.links[j]? = p.links[j]?) ∧
    ∀ (host : Nat) (ws : List Word) (m : Link), p.links[k].send host ws = .next m →
      ∃ q, p.sendTo host k ws = .next q ∧ q.links.length = p.links.length ∧
        q.links[k.val]? = some m ∧ ∀ j, j ≠ k.val → q.links[j]? = p.links[j]?

/-- 20_memory.md R64: at a packet boundary any host may send a whole packet, of a command or of none (a reserved opcode, a reserved
bit, a bad count), and the block stands at a packet boundary again; inside a packet only its own host may go on, and words of
another are refused. How the senders are told apart is the model's choice (log entry 8). -/
def Obligations.HostsInterleaveWholePackets : Prop :=
  ∀ (l : Link) (host : Nat),
    (∀ i : Instr, l.block.midPacket = false →
      ∃ m, l.send host (encode i) = .next m ∧ m.block = l.block.deliver (encode i) ∧ m.block.midPacket = false) ∧
    (∀ (cw : Word) (operands : List Word), packetLen cw = operands.length + 1 → l.block.midPacket = false →
      ∃ m, l.send host (cw :: operands) = .next m ∧ m.block = l.block.deliver (cw :: operands) ∧
        m.block.midPacket = false) ∧
    (∀ ws, l.block.midPacket = true → l.lastSender = some host →
      ∃ m, l.send host ws = .next m ∧ m.block = l.block.deliver ws) ∧
    (∀ ws, ws ≠ [] → l.block.midPacket = true → l.lastSender ≠ some host → l.send host ws = .refused .wordInterleaving)

/-- 10_state.md R29, 70_reset_and_hazards.md R234: the host reads the result words in the order they were emitted, each once,
finds none when it has read them all, and changes nothing in the block by reading. That read words stay on the channel, and
that each block has one read position, is the model's (log entry 6). -/
def Obligations.HostReadsResultsInOrder : Prop :=
  (∀ (l : Link) (k : Nat), l.wordsRead + k ≤ l.block.results.length →
    (l.readResults k).1 = (l.block.results.drop l.wordsRead).take k ∧
    (l.readResults k).2.block = l.block ∧ (l.readResults k).2.wordsRead = l.wordsRead + k) ∧
  ∀ l : Link, l.block.results.length ≤ l.wordsRead → l.readResult = (none, l)
end

