-- ==== Sys2Proof/Laws/Decode.lean ====
section
/-! SUPPORT. The header fields of the words the encoder writes, and packet framing (30_encoding.md R71 to R77, R84). -/

namespace Sys2Proof

@[simp] theorem opField_update (n : BitVec 5) : opField (0x30000000#32 ||| n.setWidth 32) = 3#4 := by
  revert n; decide

@[simp] theorem countField_update (n : BitVec 5) : countField (0x30000000#32 ||| n.setWidth 32) = n := by
  revert n; decide

@[simp] theorem updateReservedField_update (n : BitVec 5) : updateReservedField (0x30000000#32 ||| n.setWidth 32) = 0#23 := by
  revert n; decide

@[simp] theorem opcodeOf_init : opcodeOf 0x10000000#32 = .init := by decide
@[simp] theorem opcodeOf_reset : opcodeOf 0x20000000#32 = .reset := by decide
@[simp] theorem opcodeOf_digest : opcodeOf 0x40000000#32 = .digest := by decide
@[simp] theorem opcodeOf_update (n : BitVec 5) : opcodeOf (0x30000000#32 ||| n.setWidth 32) = .update := by
  simp [opcodeOf]

@[simp] theorem argField_init : argField 0x10000000#32 = 0#28 := by decide
@[simp] theorem argField_reset : argField 0x20000000#32 = 0#28 := by decide
@[simp] theorem argField_digest : argField 0x40000000#32 = 0#28 := by decide

/-- Which OP value each opcode is (R72). -/
theorem opcodeOf_cases (cw : Word) :
    (opcodeOf cw = .init ∧ opField cw = 1#4) ∨ (opcodeOf cw = .reset ∧ opField cw = 2#4) ∨
    (opcodeOf cw = .update ∧ opField cw = 3#4) ∨ (opcodeOf cw = .digest ∧ opField cw = 4#4) ∨
    (opcodeOf cw = .reserved ∧ opField cw ≠ 1#4 ∧ opField cw ≠ 2#4 ∧ opField cw ≠ 3#4 ∧ opField cw ≠ 4#4) := by
  unfold opcodeOf
  generalize opField cw = op
  revert op; decide

theorem opField_toNat (cw : Word) : (opField cw).toNat = cw.toNat / 2 ^ 28 := by
  simp [opField, BitVec.extractLsb'_toNat, Nat.shiftRight_eq_div_pow]; omega

theorem argField_toNat (cw : Word) : (argField cw).toNat = cw.toNat % 2 ^ 28 := by
  simp [argField, BitVec.extractLsb'_toNat]

theorem countField_toNat (cw : Word) : (countField cw).toNat = cw.toNat % 32 := by
  simp [countField, BitVec.extractLsb'_toNat]

theorem updateReservedField_toNat (cw : Word) : (updateReservedField cw).toNat = cw.toNat % 2 ^ 28 / 32 := by
  simp [updateReservedField, BitVec.extractLsb'_toNat, Nat.shiftRight_eq_div_pow]; omega

theorem packetLen_pos (cw : Word) : 0 < packetLen cw := by
  simp only [packetLen]; cases opcodeOf cw <;> decide

/-- The decoder finds words missing exactly when there are fewer than OP asks for (R72, R84). -/
theorem decode_incomplete_iff (cw : Word) (operands : List Word) :
    decode (cw :: operands) = .rejected .incomplete ↔ operands.length + 1 < packetLen cw := by
  simp only [decode, packetLen]
  cases opcodeOf cw <;> simp only [Opcode.words]
  · rcases operands with - | ⟨a, as⟩ <;> simp
    split <;> simp
  · split <;> simp
  · rcases operands with - | ⟨a, - | ⟨b, - | ⟨c, - | ⟨d, as⟩⟩⟩⟩ <;> simp
    repeat' split
    all_goals simp
  · split <;> simp
  · simp

/-- A header whose low 28 bits are 0 is its opcode's constant word. -/
theorem header_eq {cw : Word} {k : BitVec 4} (ho : opField cw = k) (ha : argField cw = 0#28) : cw = k ++ 0#28 := by
  rw [← ho, ← ha]
  apply BitVec.eq_of_getLsbD_eq
  intro j hj
  simp only [opField, argField, BitVec.getLsbD_append, BitVec.getLsbD_extractLsb']
  by_cases h : j < 28
  · simp [h]
  · simp only [h, if_false]
    simp [show j - 28 < 4 by omega, show 28 + (j - 28) = j by omega]

/-- An UPDATE header without reserved bits is its constant with the byte count in it. -/
theorem updateHeader_eq {cw : Word} (ho : opField cw = 3#4) (hr : updateReservedField cw = 0#23) :
    cw = 0x30000000#32 ||| (countField cw).setWidth 32 := by
  have h : cw = (opField cw ++ updateReservedField cw) ++ countField cw := by
    apply BitVec.eq_of_getLsbD_eq
    intro j hj
    simp only [opField, updateReservedField, countField, BitVec.getLsbD_append, BitVec.getLsbD_extractLsb']
    by_cases h5 : j < 5
    · simp [h5]
    · by_cases h28 : j - 5 < 23
      · simp [h5, h28, show 5 + (j - 5) = j by omega]
      · simp [h5, h28, show j - 5 - 23 < 4 by omega, show 28 + (j - 5 - 23) = j by omega]
  rw [ho, hr] at h
  generalize countField cw = n at h ⊢
  subst h
  revert n; decide

end Sys2Proof
end

