-- ==== Sys2Proof/Laws/Flags.lean ====
section
/-! SUPPORT. What the two writers of STATUS, INIT and fault entry, do to each field of it, and that both keep it legal. -/

namespace Sys2Proof.Machine

@[simp] theorem faultBit_setFault (c : Cause) (st : Byte) : faultBit (setFault c st) = true := by
  revert st; cases c <;> decide

@[simp] theorem initedBit_setFault (c : Cause) (st : Byte) : initedBit (setFault c st) = initedBit st := by
  revert st; cases c <;> decide

@[simp] theorem reservedField_setFault (c : Cause) (st : Byte) :
    reservedField (setFault c st) = reservedField st := by
  revert st; cases c <;> decide

@[simp] theorem causeField_setFault (c : Cause) (st : Byte) : causeField (setFault c st) = c.code := by
  revert st; cases c <;> decide

@[simp] theorem faultBit_setInited (st : Byte) : faultBit (setInited st) = faultBit st := by
  revert st; decide

@[simp] theorem initedBit_setInited (st : Byte) : initedBit (setInited st) = true := by
  revert st; decide

@[simp] theorem reservedField_setInited (st : Byte) : reservedField (setInited st) = reservedField st := by
  revert st; decide

@[simp] theorem causeField_setInited (st : Byte) : causeField (setInited st) = causeField st := by
  revert st; decide

/-- INIT on an initialised block does not change STATUS. -/
theorem setInited_of_inited {st : Byte} (h : initedBit st = true) : setInited st = st := by
  have key : ∀ st : Byte, initedBit st = false ∨ setInited st = st := by decide
  rcases key st with h0 | h1
  · simp [h0] at h
  · exact h1

theorem Cause.code_bounds (c : Cause) : 1 ≤ c.code.toNat ∧ c.code.toNat ≤ 5 := by cases c <;> decide

theorem statusOk_setFault {st : Byte} (c : Cause) (h : StatusOk st) : StatusOk (setFault c st) := by
  refine ⟨by simpa using h.1, by simpa using c.code_bounds.2, ?_⟩
  cases c <;> simp [Cause.code]

theorem statusOk_setInited {st : Byte} (h : StatusOk st) : StatusOk (setInited st) := by
  simpa [StatusOk] using h

@[simp] theorem State.markInited_faulted (s : State) : s.markInited.faulted = s.faulted := faultBit_setInited s.status

@[simp] theorem State.markInited_inited (s : State) : s.markInited.inited = true := initedBit_setInited s.status

@[simp] theorem State.raiseFault_faulted (s : State) (c : Cause) : (s.raiseFault c).faulted = true :=
  faultBit_setFault c s.status

@[simp] theorem State.raiseFault_inited (s : State) (c : Cause) : (s.raiseFault c).inited = s.inited :=
  initedBit_setFault c s.status

theorem lengthOverflows_iff (t : TotalLen) (n : Nat) :
    lengthOverflows t n = true ↔ 2 ^ 64 ≤ t.toNat + n := by
  simp only [lengthOverflows, decide_eq_true_eq]; omega

end Sys2Proof.Machine
end

