-- ==== Sys2Proof/Laws/State.lean ====
section
/-! SUPPORT. One lemma per field per state update, each true by `rfl`, so that no proof unfolds a record update. -/

namespace Sys2Proof.Machine

section powerOn
variable (sd : Word) (v : Lanes) (t : TotalLen) (c : BitVec 4) (w : List Word)

@[simp] theorem State.powerOn_status : (State.powerOn sd v t c w).status = 0 := rfl
@[simp] theorem State.powerOn_results : (State.powerOn sd v t c w).results = [] := rfl
@[simp] theorem State.powerOn_held : (State.powerOn sd v t c w).held = [] := rfl
@[simp] theorem State.powerOn_channel : (State.powerOn sd v t c w).channel = w := rfl
@[simp] theorem State.powerOn_faulted : (State.powerOn sd v t c w).faulted = false := by
  simp [State.faulted, faultBit]
@[simp] theorem State.powerOn_inited : (State.powerOn sd v t c w).inited = false := by
  simp [State.inited, initedBit]
@[simp] theorem State.powerOn_buf : (State.powerOn sd v t c w).hasher.buf = Vector.replicate 16 none := rfl
end powerOn

/-- FAULT of a state written out field by field. -/
@[simp] theorem State.faulted_mk (h : Hasher) (st : Byte) (r hd ch : List Word) :
    (State.mk h st r hd ch).faulted = faultBit st := rfl

/-- INITED of a state written out field by field. -/
@[simp] theorem State.inited_mk (h : Hasher) (st : Byte) (r hd ch : List Word) :
    (State.mk h st r hd ch).inited = initedBit st := rfl

variable (s : State) (r : Word) (c : Cause) (ws : List Word) (n : Nat) (h : Hasher)

@[simp] theorem State.withHasher_hasher : (s.withHasher h).hasher = h := rfl
@[simp] theorem State.withHasher_status : (s.withHasher h).status = s.status := rfl
@[simp] theorem State.withHasher_results : (s.withHasher h).results = s.results := rfl
@[simp] theorem State.withHasher_held : (s.withHasher h).held = s.held := rfl
@[simp] theorem State.withHasher_channel : (s.withHasher h).channel = s.channel := rfl
@[simp] theorem State.withHasher_faulted : (s.withHasher h).faulted = s.faulted := rfl
@[simp] theorem State.withHasher_inited : (s.withHasher h).inited = s.inited := rfl

@[simp] theorem State.markInited_hasher : (s.markInited).hasher = s.hasher := rfl
@[simp] theorem State.markInited_status : (s.markInited).status = setInited s.status := rfl
@[simp] theorem State.markInited_results : (s.markInited).results = s.results := rfl
@[simp] theorem State.markInited_held : (s.markInited).held = s.held := rfl
@[simp] theorem State.markInited_channel : (s.markInited).channel = s.channel := rfl

@[simp] theorem State.emit_hasher : (s.emit r).hasher = s.hasher := rfl
@[simp] theorem State.emit_status : (s.emit r).status = s.status := rfl
@[simp] theorem State.emit_results : (s.emit r).results = s.results ++ [r] := rfl
@[simp] theorem State.emit_held : (s.emit r).held = s.held := rfl
@[simp] theorem State.emit_channel : (s.emit r).channel = s.channel := rfl
@[simp] theorem State.emit_faulted : (s.emit r).faulted = s.faulted := rfl
@[simp] theorem State.emit_inited : (s.emit r).inited = s.inited := rfl

@[simp] theorem State.raiseFault_hasher : (s.raiseFault c).hasher = s.hasher := rfl
@[simp] theorem State.raiseFault_status : (s.raiseFault c).status = setFault c s.status := rfl
@[simp] theorem State.raiseFault_results : (s.raiseFault c).results = s.results := rfl
@[simp] theorem State.raiseFault_held : (s.raiseFault c).held = s.held := rfl
@[simp] theorem State.raiseFault_channel : (s.raiseFault c).channel = s.channel := rfl

@[simp] theorem State.holdWords_hasher : s.holdWords.hasher = s.hasher := rfl
@[simp] theorem State.holdWords_status : s.holdWords.status = s.status := rfl
@[simp] theorem State.holdWords_results : s.holdWords.results = s.results := rfl
@[simp] theorem State.holdWords_held : s.holdWords.held = s.arrived := rfl
@[simp] theorem State.holdWords_channel : s.holdWords.channel = [] := rfl
@[simp] theorem State.holdWords_faulted : s.holdWords.faulted = s.faulted := rfl
@[simp] theorem State.holdWords_inited : s.holdWords.inited = s.inited := rfl
@[simp] theorem State.holdWords_arrived : s.holdWords.arrived = s.arrived := List.append_nil _

@[simp] theorem State.takeWords_hasher : (s.takeWords n).hasher = s.hasher := rfl
@[simp] theorem State.takeWords_status : (s.takeWords n).status = s.status := rfl
@[simp] theorem State.takeWords_results : (s.takeWords n).results = s.results := rfl
@[simp] theorem State.takeWords_held : (s.takeWords n).held = [] := rfl
@[simp] theorem State.takeWords_channel : (s.takeWords n).channel = s.arrived.drop n := rfl
@[simp] theorem State.takeWords_faulted : (s.takeWords n).faulted = s.faulted := rfl
@[simp] theorem State.takeWords_inited : (s.takeWords n).inited = s.inited := rfl
@[simp] theorem State.takeWords_arrived : (s.takeWords n).arrived = s.arrived.drop n := rfl

@[simp] theorem State.deliver_hasher : (s.deliver ws).hasher = s.hasher := rfl
@[simp] theorem State.deliver_status : (s.deliver ws).status = s.status := rfl
@[simp] theorem State.deliver_results : (s.deliver ws).results = s.results := rfl
@[simp] theorem State.deliver_held : (s.deliver ws).held = s.held := rfl
@[simp] theorem State.deliver_channel : (s.deliver ws).channel = s.channel ++ ws := rfl
@[simp] theorem State.deliver_arrived : (s.deliver ws).arrived = s.arrived ++ ws := by
  simp [State.arrived, State.deliver]

@[simp] theorem State.withNextPacket_hasher : (s.withNextPacket ws).hasher = s.hasher := rfl
@[simp] theorem State.withNextPacket_status : (s.withNextPacket ws).status = s.status := rfl
@[simp] theorem State.withNextPacket_results : (s.withNextPacket ws).results = s.results := rfl
@[simp] theorem State.withNextPacket_arrived : (s.withNextPacket ws).arrived = ws ++ s.channel := rfl

@[simp] theorem Hasher.withSeed_seed (v : Word) : (h.withSeed v).seed = v := rfl

@[simp] theorem Hasher.resetState_seed : h.resetState.seed = h.seed := by
  unfold Hasher.resetState; rfl
@[simp] theorem Hasher.resetState_lanes : h.resetState.lanes = laneInit h.seed := rfl
@[simp] theorem Hasher.resetState_totalLen : h.resetState.totalLen = 0 := rfl
@[simp] theorem Hasher.resetState_buf : h.resetState.buf = Vector.replicate 16 none := rfl
@[simp] theorem Hasher.resetState_carryLen : h.resetState.carryLen = 0 := rfl

end Sys2Proof.Machine
end

