-- ==== Sys2Proof/Laws/Ops.lean ====
section
/-! SUPPORT. The shared operations: what each command may answer, once per guard, and reading the carry buffer. -/

namespace Sys2Proof.Machine

/-- All a command guarded by R204 can end in: the state it found, if the block has faulted, or its own. -/
theorem State.unlessFaulted_cases (s t : State) :
    (s.faulted = true ∧ s.unlessFaulted t = s) ∨ (s.faulted = false ∧ s.unlessFaulted t = t) := by
  cases h : s.faulted <;> simp [State.unlessFaulted, h]

/-- All a command guarded by R205 can end in: NOT_INITIALISED, or its own state. -/
theorem State.ifInited_cases (s t : State) :
    (s.inited = false ∧ s.ifInited t = s.raiseFault .notInitialised) ∨ (s.inited = true ∧ s.ifInited t = t) := by
  cases h : s.inited <;> simp [State.ifInited, h]

@[simp] theorem State.unlessFaulted_of_faulted {s : State} (t : State) (h : s.faulted = true) : s.unlessFaulted t = s := by
  simp [State.unlessFaulted, h]

@[simp] theorem State.unlessFaulted_of_live {s : State} (t : State) (h : s.faulted = false) : s.unlessFaulted t = t := by
  simp [State.unlessFaulted, h]

@[simp] theorem State.ifInited_of_inited {s : State} (t : State) (h : s.inited = true) : s.ifInited t = t := by
  simp [State.ifInited, h]

@[simp] theorem State.ifInited_of_not {s : State} (t : State) (h : s.inited = false) :
    s.ifInited t = s.raiseFault .notInitialised := by
  simp [State.ifInited, h]

/-- The model's rotation is the library's. -/
theorem rotl32_eq_rotateLeft (x : Word) {r : Nat} (h : r < 32) : rotl32 x r = x.rotateLeft r := by
  simp [rotl32, BitVec.rotateLeft, BitVec.rotateLeftAux, Nat.mod_eq_of_lt h]

/-- Reading a position of the carry buffer. -/
theorem Hasher.bufByte_eq (h : Hasher) {j : Nat} (hj : j < 16) :
    h.bufByte j = (h.buf[j]).getD (Config.noValueByte j) := by
  simp [Hasher.bufByte, hj]

@[simp] theorem Hasher.validBytes_length (h : Hasher) : h.validBytes.length = h.carryLen.toNat := by
  simp [Hasher.validBytes]

theorem Hasher.validBytes_getElem? (h : Hasher) (j : Nat) :
    h.validBytes[j]? = if j < h.carryLen.toNat then some (h.bufByte j) else none := by
  simp only [Hasher.validBytes, List.getElem?_map]
  split <;> simp [*]

theorem Hasher.carryLen_lt (h : Hasher) : h.carryLen.toNat < 16 := h.carryLen.isLt

end Sys2Proof.Machine
end

