-- ==== Sys2Proof/Laws/Exec.lean ====
section
/-! SUPPORT. What a command can do, said once: the inversion lemma of `exec`, and the answer of each meaning in a ready
block. -/

namespace Sys2Proof.Machine

/-- Every way a command can end. -/
theorem exec_cases {i : Instr} {s t : State} (h : exec i s = .next t) :
    (s.faulted = true ∧ t = s) ∨ (s.faulted = false ∧ (
      (∃ seed, i = .init seed ∧ t = (s.withHasher (s.hasher.withSeed seed).resetState).markInited) ∨
      (∃ n d0 d1 d2 d3, i = .update n d0 d1 d2 d3 ∧ 16 < n.toNat ∧ t = s.raiseFault .badCount) ∨
      ((∀ seed, i ≠ .init seed) ∧ s.inited = false ∧ t = s.raiseFault .notInitialised) ∨
      (s.inited = true ∧ i = .reset ∧ t = s.withHasher s.hasher.resetState) ∨
      (s.inited = true ∧ ∃ n d0 d1 d2 d3, i = .update n d0 d1 d2 d3 ∧ n.toNat ≤ 16 ∧
        2 ^ 64 ≤ s.hasher.totalLen.toNat + n.toNat ∧ t = s.raiseFault .lengthOverflow) ∨
      (s.inited = true ∧ ∃ n d0 d1 d2 d3, i = .update n d0 d1 d2 d3 ∧ n.toNat ≤ 16 ∧
        s.hasher.totalLen.toNat + n.toNat < 2 ^ 64 ∧ t = s.withHasher (s.hasher.updateAlg (dataBytes n d0 d1 d2 d3))) ∨
      (s.inited = true ∧ i = .digest ∧ t = s.emit (intdigest s.hasher)))) := by
  cases hf : s.faulted
  · refine .inr ⟨rfl, ?_⟩
    cases i with
    | init seed =>
      simp [exec, execInit, hf] at h; exact .inl ⟨seed, rfl, h.symm⟩
    | reset =>
      simp [exec, execReset, hf] at h
      rcases s.ifInited_cases (s.withHasher s.hasher.resetState) with ⟨hi, -⟩ | ⟨hi, -⟩ <;> simp [← h, hi]
    | digest =>
      simp [exec, execDigest, hf] at h
      rcases s.ifInited_cases (s.emit (intdigest s.hasher)) with ⟨hi, -⟩ | ⟨hi, -⟩ <;> simp [← h, hi]
    | update n d0 d1 d2 d3 =>
      simp only [exec, execUpdate, State.unlessFaulted_of_live _ hf] at h
      injection h with h
      subst h
      by_cases hn : n.toNat > 16
      · exact .inr (.inl ⟨n, d0, d1, d2, d3, rfl, hn, if_pos hn⟩)
      · rw [if_neg hn]
        have hov := lengthOverflows_iff s.hasher.totalLen n.toNat
        cases hi : s.inited
        · exact .inr (.inr (.inl ⟨by simp, rfl, State.ifInited_of_not _ hi⟩))
        · rw [State.ifInited_of_inited _ hi]
          split
          · next ho =>
            exact .inr (.inr (.inr (.inr (.inl ⟨rfl, n, d0, d1, d2, d3, rfl, by omega, hov.mp ho, rfl⟩))))
          · next ho =>
            rw [hov] at ho
            exact .inr (.inr (.inr (.inr (.inr (.inl ⟨rfl, n, d0, d1, d2, d3, rfl, by omega, by omega, rfl⟩)))))
  · refine .inl ⟨rfl, ?_⟩
    cases i <;> simp [exec, execInit, execReset, execUpdate, execDigest, hf] at h <;> exact h.symm

section ready
variable {s : State}

theorem exec_of_faulted (i : Instr) (hf : s.faulted = true) : exec i s = .next s := by
  cases i <;> simp [exec, execInit, execReset, execUpdate, execDigest, hf]

theorem execInit_of_live (seed : Word) (hf : s.faulted = false) :
    execInit seed s = .next (s.withHasher (s.hasher.withSeed seed).resetState).markInited := by
  simp [execInit, hf]

theorem execReset_of_ready (h : s.Ready) : execReset s = .next (s.withHasher s.hasher.resetState) := by
  simp [execReset, h.1, h.2]

theorem execUpdate_of_ready {n : BitVec 5} (d0 d1 d2 d3 : Word) (h : s.Ready) (hn : n.toNat ≤ 16)
    (ht : s.hasher.totalLen.toNat + n.toNat < 2 ^ 64) :
    execUpdate n d0 d1 d2 d3 s = .next (s.withHasher (s.hasher.updateAlg (dataBytes n d0 d1 d2 d3))) := by
  have ho : lengthOverflows s.hasher.totalLen n.toNat = false := by
    rw [← Bool.not_eq_true, lengthOverflows_iff]; omega
  simp [execUpdate, h.1, h.2, ho, Nat.not_lt.mpr hn]

theorem execDigest_of_ready (h : s.Ready) : execDigest s = .next (s.emit (intdigest s.hasher)) := by
  simp [execDigest, h.1, h.2]

end ready

end Sys2Proof.Machine
end

