-- ==== Sys2Proof/Laws/Fetch.lean ====
section
/-! SUPPORT. What a step can do, said once: hold, discard, fault on a packet that is no command, or execute a command
(30_encoding.md R83, R84; 60_exceptions.md R204). -/

namespace Sys2Proof.Machine

/-- The next packet is held exactly when nothing, or only part of it, has arrived (R84). -/
theorem State.fetch_hold {s : State}
    (h : ∀ cw operands, s.arrived = cw :: operands → operands.length + 1 < packetLen cw) :
    s.fetch = .hold s.holdWords := by
  unfold State.fetch
  split
  · rfl
  · next cw operands he => rw [if_pos (h cw operands he)]

/-- A whole packet and a faulted block: the packet is discarded (R204). -/
theorem State.fetch_discard {s : State} {cw : Word} {operands : List Word} (he : s.arrived = cw :: operands)
    (hl : packetLen cw ≤ operands.length + 1) (hf : s.faulted = true) :
    s.fetch = .discard (s.takeWords (packetLen cw)) := by
  unfold State.fetch
  rw [he]
  simp [Nat.not_lt.mpr hl, hf]

/-- A whole packet that is a command, and a live block. -/
theorem State.fetch_run {s : State} {cw : Word} {operands rest : List Word} {i : Instr} (he : s.arrived = cw :: operands)
    (hf : s.faulted = false) (hd : decode (cw :: operands) = .command i rest) :
    s.fetch = .run i (s.takeWords (packetLen cw)) := by
  have hl : ¬ operands.length + 1 < packetLen cw := by
    rw [← decode_incomplete_iff, hd]; simp
  unfold State.fetch
  rw [he]
  simp [hl, hf, hd]

/-- A whole packet that is no command, and a live block. -/
theorem State.fetch_illegal {s : State} {cw : Word} {operands : List Word} {r : Reject} {c : Cause}
    (he : s.arrived = cw :: operands) (hf : s.faulted = false) (hd : decode (cw :: operands) = .rejected r)
    (hr : rejectCause r = some c) : s.fetch = .illegal c (s.takeWords (packetLen cw)) := by
  have hl : ¬ operands.length + 1 < packetLen cw := by
    rw [← decode_incomplete_iff, hd]; intro h; injection h with h; subst h; simp [rejectCause] at hr
  unfold State.fetch
  rw [he]
  simp [hl, hf, hd, hr]

/-- Every way the next packet can be taken: the inversion lemma of `fetch`. -/
theorem State.fetch_cases (s : State) :
    ((∀ cw operands, s.arrived = cw :: operands → operands.length + 1 < packetLen cw) ∧ s.fetch = .hold s.holdWords) ∨
    (∃ cw operands, s.arrived = cw :: operands ∧ packetLen cw ≤ operands.length + 1 ∧
      ((s.faulted = true ∧ s.fetch = .discard (s.takeWords (packetLen cw))) ∨
       (s.faulted = false ∧ ∃ i rest, decode (cw :: operands) = .command i rest ∧
          s.fetch = .run i (s.takeWords (packetLen cw))) ∨
       (s.faulted = false ∧ ∃ r c, decode (cw :: operands) = .rejected r ∧ rejectCause r = some c ∧
          s.fetch = .illegal c (s.takeWords (packetLen cw))))) := by
  by_cases hh : ∀ cw operands, s.arrived = cw :: operands → operands.length + 1 < packetLen cw
  · exact .inl ⟨hh, State.fetch_hold hh⟩
  · push Not at hh
    obtain ⟨cw, operands, he, hl⟩ := hh
    refine .inr ⟨cw, operands, he, hl, ?_⟩
    cases hf : s.faulted
    · cases hd : decode (cw :: operands) with
      | command i rest => exact .inr (.inl ⟨rfl, i, rest, rfl, State.fetch_run he hf hd⟩)
      | rejected r =>
        have hr : r ≠ .incomplete := by
          rintro rfl
          exact absurd ((decode_incomplete_iff _ _).mp hd) (Nat.not_lt.mpr hl)
        cases hc : rejectCause r with
        | none => cases r <;> simp_all [rejectCause]
        | some c => exact .inr (.inr ⟨rfl, r, c, rfl, hc, State.fetch_illegal he hf hd hc⟩)
    · exact .inl ⟨rfl, State.fetch_discard he hl hf⟩

/-- Every way a step can go: the inversion lemma of `step`. A step never stops. -/
theorem step_cases (s : State) :
    ((∀ cw operands, s.arrived = cw :: operands → operands.length + 1 < packetLen cw) ∧ step s = .next s.holdWords) ∨
    (∃ cw operands, s.arrived = cw :: operands ∧ packetLen cw ≤ operands.length + 1 ∧
      ((s.faulted = true ∧ step s = .next (s.takeWords (packetLen cw))) ∨
       (s.faulted = false ∧ ∃ i rest, decode (cw :: operands) = .command i rest ∧
          step s = exec i (s.takeWords (packetLen cw))) ∨
       (s.faulted = false ∧ ∃ r c, decode (cw :: operands) = .rejected r ∧ rejectCause r = some c ∧
          step s = .next ((s.takeWords (packetLen cw)).raiseFault c)))) := by
  rcases s.fetch_cases with ⟨h, hs⟩ | ⟨cw, operands, he, hl, ⟨hf, hs⟩ | ⟨hf, i, rest, hd, hs⟩ | ⟨hf, r, c, hd, hc, hs⟩⟩
  · exact .inl ⟨h, by simp [step, hs]⟩
  · exact .inr ⟨cw, operands, he, hl, .inl ⟨hf, by simp [step, hs]⟩⟩
  · exact .inr ⟨cw, operands, he, hl, .inr (.inl ⟨hf, i, rest, hd, by simp [step, hs]⟩)⟩
  · exact .inr ⟨cw, operands, he, hl, .inr (.inr ⟨hf, r, c, hd, hc, by simp [step, hs]⟩)⟩

end Sys2Proof.Machine
end

