-- ==== Sys2Proof/Laws/Mux.lean ====
section
/-! SUPPORT. carry_buffer_mux, block by block: what each write of the buffer leaves at each position, and update_alg as one
function of the pending bytes followed by the input (41_carry_buffer_mux.md R120, R121). -/

namespace Sys2Proof.Machine

@[simp] theorem bufWrite_getElem (base : Nat) (d : List Byte) (m : Nat) (buf : CarryBuffer) (j : Nat) (hj : j < 16) :
    (bufWrite base d m buf)[j] = if base ≤ j ∧ j < base + m then d[j - base]? else buf[j] := by
  simp [bufWrite]

@[simp] theorem bufForget_getElem (len : Nat) (buf : CarryBuffer) (j : Nat) (hj : j < 16) :
    (bufForget len buf)[j] = if j < len then buf[j] else none := by
  simp [bufForget]

@[simp] theorem Block.ofCells_getElem (cells : CarryBuffer) (j : Nat) (hj : j < 16) :
    (Block.ofCells cells)[j] = (cells[j]).getD (Config.noValueByte j) := by
  simp [Block.ofCells]

@[simp] theorem Block.ofList_getElem (d : List Byte) (j : Nat) (hj : j < 16) :
    (Block.ofList d)[j] = (d[j]?).getD (Config.noValueByte j) := by
  simp [Block.ofList]

/-- Only the first sixteen bytes of an input make its first block. -/
theorem Block.ofList_append {d : List Byte} (e : List Byte) (hd : 16 ≤ d.length) : Block.ofList (d ++ e) = Block.ofList d := by
  apply Vector.ext
  intro j hj
  rw [Block.ofList_getElem _ j hj, Block.ofList_getElem _ j hj, List.getElem?_append_left (by omega)]

theorem mixBlocks_zero (v : Lanes) (s : List Byte) : mixBlocks v s 0 = v := rfl

/-- The last block of a stream is mixed last. -/
theorem mixBlocks_succ_last (v : Lanes) (s : List Byte) (k : Nat) :
    mixBlocks v s (k + 1) = blockMix (mixBlocks v s k) (Block.ofList (s.drop (16 * k))) := by
  simp [mixBlocks, List.range_succ]

/-- The first block of a stream is mixed first. -/
theorem mixBlocks_succ_first (v : Lanes) (s : List Byte) (k : Nat) :
    mixBlocks v s (k + 1) = mixBlocks (blockMix v (Block.ofList s)) (s.drop 16) k := by
  simp [mixBlocks, List.range_succ_eq_map, List.foldl_map, Nat.mul_add, Nat.add_comm]

/-- Blocks of a stream do not depend on what follows them. -/
theorem mixBlocks_append (v : Lanes) (s e : List Byte) (k : Nat) (hk : 16 * k ≤ s.length) :
    mixBlocks v (s ++ e) k = mixBlocks v s k := by
  induction k with
  | zero => rw [mixBlocks_zero, mixBlocks_zero]
  | succ k ih =>
    rw [mixBlocks_succ_last, mixBlocks_succ_last, ih (by omega), List.drop_append_of_le_length (by omega),
      Block.ofList_append _ (by simp; omega)]

/-- Blocks of a stream in two runs. -/
theorem mixBlocks_add (v : Lanes) (s : List Byte) (j k : Nat) :
    mixBlocks v s (j + k) = mixBlocks (mixBlocks v s j) (s.drop (16 * j)) k := by
  induction j generalizing v s with
  | zero => simp [mixBlocks_zero]
  | succ j ih =>
    rw [show j + 1 + k = (j + k) + 1 by omega, mixBlocks_succ_first, ih, mixBlocks_succ_first, List.drop_drop]
    congr 2; omega

/-- Step 3 of update_alg mixes every whole block and leaves the rest (41_carry_buffer_mux.md R121). -/
theorem mixWhole_eq (fuel : Nat) (v : Lanes) (d : List Byte) (hf : d.length / 16 ≤ fuel) :
    mixWhole fuel v d = (mixBlocks v d (d.length / 16), d.drop (16 * (d.length / 16))) := by
  induction fuel generalizing v d with
  | zero => simp [mixWhole, mixBlocks_zero, Nat.le_zero.mp hf]
  | succ fuel ih =>
    unfold mixWhole
    split
    · next h =>
      obtain ⟨k, hk⟩ : ∃ k, d.length / 16 = k + 1 := ⟨d.length / 16 - 1, by omega⟩
      have hk' : (d.drop 16).length / 16 = k := by simp; omega
      rw [ih _ _ (by omega), hk', hk, mixBlocks_succ_first, List.drop_drop]
      congr 2; omega
    · next h => simp [mixBlocks_zero, Nat.div_eq_of_lt (Nat.lt_of_not_le h)]

/-- The pending bytes followed by the input: what update_alg cuts into blocks. -/
def Hasher.pendingThen (h : Hasher) (d : List Byte) : List Byte := h.validBytes ++ d

@[simp] theorem Hasher.pendingThen_length (h : Hasher) (d : List Byte) :
    (h.pendingThen d).length = h.carryLen.toNat + d.length := by
  simp [Hasher.pendingThen]

theorem Hasher.pendingThen_getElem? (h : Hasher) (d : List Byte) (j : Nat) :
    (h.pendingThen d)[j]? = if j < h.carryLen.toNat then some (h.bufByte j) else d[j - h.carryLen.toNat]? := by
  unfold Hasher.pendingThen
  split
  · next hj => rw [List.getElem?_append_left (by simpa), Hasher.validBytes_getElem?, if_pos hj]
  · rw [List.getElem?_append_right (by simp; omega), Hasher.validBytes_length]

/-- The filled buffer is the first block of the pending bytes followed by the input (step 2 of update_alg). -/
theorem Hasher.ofCells_filledBuf (h : Hasher) (d : List Byte) (hc : 0 < h.carryLen.toNat) : Block.ofCells (h.filledBuf d) = Block.ofList (h.pendingThen d) := by
  have hlt := h.carryLen_lt
  apply Vector.ext
  intro j hj
  rw [Block.ofCells_getElem _ j hj, Block.ofList_getElem _ j hj, Hasher.filledBuf, if_pos hc, bufWrite_getElem _ _ _ _ _ hj]
  unfold Hasher.pendingThen
  by_cases hjc : j < h.carryLen.toNat
  · rw [if_neg (by omega), List.getElem?_append_left (by simpa using hjc), Hasher.validBytes_getElem?, if_pos hjc,
      Hasher.bufByte_eq _ hj, Option.getD_some]
  · rw [if_pos (by omega), List.getElem?_append_right (by simpa using Nat.le_of_not_lt hjc), Hasher.validBytes_length]

/-- The lanes and the leftover bytes of steps 2 and 3 of update_alg, as blocks of the pending bytes followed by the input. -/
theorem Hasher.mixWhole_filled (h : Hasher) (d : List Byte) (hd : 16 ≤ h.carryLen.toNat + d.length) :
    mixWhole d.length (h.filledLanes d) (d.drop h.fillCount) =
      (mixBlocks h.lanes (h.pendingThen d) ((h.carryLen.toNat + d.length) / 16),
        (h.pendingThen d).drop (16 * ((h.carryLen.toNat + d.length) / 16))) := by
  have hlt := h.carryLen_lt
  rw [mixWhole_eq _ _ _ (by simp; omega)]
  by_cases hc : 0 < h.carryLen.toNat
  · obtain ⟨k, hk⟩ : ∃ k, (h.carryLen.toNat + d.length) / 16 = k + 1 := ⟨(h.carryLen.toNat + d.length) / 16 - 1, by omega⟩
    have hdrop : d.drop h.fillCount = (h.pendingThen d).drop 16 := by
      rw [Hasher.fillCount, if_pos hc, Hasher.pendingThen, List.drop_append]
      simp [List.drop_eq_nil_of_le, Nat.le_of_lt hlt]
    have hk' : (d.drop h.fillCount).length / 16 = k := by
      rw [hdrop]; simp; omega
    rw [hk', hk, mixBlocks_succ_first, ← h.ofCells_filledBuf d hc, hdrop, List.drop_drop, Hasher.filledLanes, if_pos hc]
    congr 2; omega
  · have h0 : h.carryLen.toNat = 0 := by omega
    have hv : h.validBytes = [] := List.eq_nil_of_length_eq_zero (by simp [h0])
    simp [Hasher.fillCount, Hasher.filledLanes, h0, Hasher.pendingThen, hv]

/-- The carry buffer update_alg leaves after it has completed a block: the leftover bytes, and no value above them. -/
theorem bufForget_bufWrite_zero (r : List Byte) (buf : CarryBuffer) :
    bufForget r.length (bufWrite 0 r r.length buf) = Vector.ofFn fun j : Fin 16 => r[j.val]? := by
  apply Vector.ext
  intro j hj
  rw [bufForget_getElem _ _ _ hj, bufWrite_getElem _ _ _ _ _ hj, Vector.getElem_ofFn]
  by_cases h : j < r.length
  · simp [h]
  · simp [h]

section updateAlg
variable (h : Hasher) (d : List Byte)

@[simp] theorem Hasher.updateAlg_seed : (h.updateAlg d).seed = h.seed := by
  unfold Hasher.updateAlg; split <;> rfl

@[simp] theorem Hasher.updateAlg_totalLen :
    (h.updateAlg d).totalLen = h.totalLen + BitVec.ofNat 64 d.length := by
  unfold Hasher.updateAlg; split <;> rfl

/-- update_alg mixes the whole blocks of the pending bytes followed by the input, and nothing else. -/
theorem Hasher.updateAlg_lanes :
    (h.updateAlg d).lanes = mixBlocks h.lanes (h.pendingThen d) ((h.carryLen.toNat + d.length) / 16) := by
  unfold Hasher.updateAlg
  split
  · next hs => rw [Nat.div_eq_of_lt hs]; rfl
  · next hs => exact congrArg Prod.fst (h.mixWhole_filled d (Nat.le_of_not_lt hs))

theorem Hasher.updateAlg_carryLen :
    (h.updateAlg d).carryLen = BitVec.ofNat 4 ((h.carryLen.toNat + d.length) % 16) := by
  unfold Hasher.updateAlg
  split
  · next hs => rw [Nat.mod_eq_of_lt hs]; rfl
  · next hs =>
    change BitVec.ofNat 4 (mixWhole d.length (h.filledLanes d) (d.drop h.fillCount)).2.length = _
    rw [h.mixWhole_filled d (Nat.le_of_not_lt hs)]
    congr 1
    simp; omega

theorem Hasher.updateAlg_carryLen_toNat :
    (h.updateAlg d).carryLen.toNat = (h.carryLen.toNat + d.length) % 16 := by
  rw [h.updateAlg_carryLen d, BitVec.toNat_ofNat]; omega

/-- A short input is written behind the pending bytes; every other position holds (step 1). -/
theorem Hasher.updateAlg_buf_short (hs : h.carryLen.toNat + d.length < 16) :
    (h.updateAlg d).buf = bufWrite h.carryLen.toNat d d.length h.buf := by
  unfold Hasher.updateAlg; rw [if_pos hs]; rfl

/-- An input that completes a block leaves the bytes after the last whole block, and no value above them (steps 2 to 4). -/
theorem Hasher.updateAlg_buf_blocks (hs : 16 ≤ h.carryLen.toNat + d.length) :
    (h.updateAlg d).buf =
      Vector.ofFn fun j : Fin 16 => (h.pendingThen d)[16 * ((h.carryLen.toNat + d.length) / 16) + j.val]? := by
  unfold Hasher.updateAlg
  rw [if_neg (Nat.not_lt.mpr hs)]
  change bufForget (mixWhole d.length (h.filledLanes d) (d.drop h.fillCount)).2.length
    (bufWrite 0 (mixWhole d.length (h.filledLanes d) (d.drop h.fillCount)).2
      (mixWhole d.length (h.filledLanes d) (d.drop h.fillCount)).2.length (h.filledBuf d)) = _
  rw [h.mixWhole_filled d hs, bufForget_bufWrite_zero]
  simp

/-- The valid bytes update_alg leaves: what follows the last whole block of the pending bytes and the input. -/
theorem Hasher.updateAlg_validBytes :
    (h.updateAlg d).validBytes = (h.pendingThen d).drop (16 * ((h.carryLen.toNat + d.length) / 16)) := by
  have hlt := h.carryLen_lt
  apply List.ext_getElem?
  intro j
  rw [Hasher.validBytes_getElem?, Hasher.updateAlg_carryLen_toNat]
  split
  · next hj =>
    rw [Hasher.bufByte_eq _ (by omega)]
    rcases Nat.lt_or_ge (h.carryLen.toNat + d.length) 16 with hs | hs
    · rw [Nat.div_eq_of_lt hs]
      rw [Nat.mod_eq_of_lt hs] at hj
      simp only [h.updateAlg_buf_short d hs]
      rw [bufWrite_getElem _ _ _ _ _ (by omega), Nat.mul_zero, List.drop_zero, Hasher.pendingThen_getElem?]
      split
      · rw [if_neg (by omega), List.getElem?_eq_getElem (by omega), Option.getD_some]
      · rw [if_pos (by omega), Hasher.bufByte_eq _ (by omega)]
    · simp only [h.updateAlg_buf_blocks d hs, Vector.getElem_ofFn, List.getElem?_drop]
      rw [List.getElem?_eq_getElem (by simp; omega), Option.getD_some]
  · rw [List.getElem?_eq_none]; simp; omega

end updateAlg

/-- Byte `k` of an UPDATE packet is bits [8k+7:8k] of its four data words joined, D0 lowest (30_encoding.md R76). -/
theorem dataByte_eq_extract (d0 d1 d2 d3 : Word) {k : Nat} (hk : k < 16) :
    dataByte d0 d1 d2 d3 k = (d3 ++ d2 ++ d1 ++ d0).extractLsb' (8 * k) 8 := by
  apply BitVec.eq_of_getLsbD_eq
  intro j hj
  simp only [dataByte, dataWord, BitVec.getLsbD_extractLsb', BitVec.getLsbD_append]
  have : k / 4 = 0 ∨ k / 4 = 1 ∨ k / 4 = 2 ∨ k / 4 = 3 := by omega
  rcases this with h | h | h | h <;> rw [h] <;> simp [hj]
  · rw [if_pos (by omega)]; congr 1; omega
  · rw [if_neg (by omega), if_pos (by omega)]; congr 1; omega
  · rw [if_neg (by omega), if_neg (by omega), if_pos (by omega)]; congr 1; omega
  · rw [if_neg (by omega), if_neg (by omega), if_neg (by omega)]; congr 1; omega

@[simp] theorem dataBytes_length (n : BitVec 5) (d0 d1 d2 d3 : Word) : (dataBytes n d0 d1 d2 d3).length = n.toNat := by
  simp [dataBytes]

end Sys2Proof.Machine
end

