-- ==== Sys2Proof/Laws/PerInstr.lean ====
section
/-! SUPPORT. Statements for all commands, one lemma per constructor. -/

namespace Sys2Proof.Laws.Framing

/-- The packet of a command is a header word followed by as many operand words as its OP asks for (30_encoding.md R70,
R72). -/
def Statement (i : Instr) : Prop := ∃ cw operands, encode i = cw :: operands ∧ packetLen cw = operands.length + 1

theorem init (seed : Word) : Statement (.init seed) := ⟨_, _, rfl, by simp [packetLen, Opcode.words]⟩

theorem reset : Statement .reset := ⟨_, _, rfl, by simp [packetLen, Opcode.words]⟩

theorem update (n : BitVec 5) (d0 d1 d2 d3 : Word) : Statement (.update n d0 d1 d2 d3) :=
  ⟨_, _, rfl, by simp [packetLen, Opcode.words]⟩

theorem digest : Statement .digest := ⟨_, _, rfl, by simp [packetLen, Opcode.words]⟩

end Sys2Proof.Laws.Framing
end

