-- ==== Sys2Proof/Tests/Slice0.lean ====
section
/-! SUPPORT. Tests on fixed values, with expected results from spec/95_test_vectors.md or from a rule's own example, and for
every obligation with hypotheses a witness: a concrete state and operands that meet them all. -/

namespace Sys2Proof.Tests

open Sys2Proof Sys2Proof.Machine

/-! ### Helpers -/

/-- `lane_init(0)`, as 95_test_vectors.md 3.1 lists it. -/
def lanes0 : Lanes := { v1 := 0x24234428, v2 := 0x85EBCA77, v3 := 0x00000000, v4 := 0x61C8864F }

/-- A block that has not faulted, after INIT 0, with a count, pending bytes and waiting command words. -/
def ready (totalLen : TotalLen) (pending : List Byte) (channel : List Word) : State :=
  { hasher :=
      { seed := 0, totalLen := totalLen, buf := Vector.ofFn fun j => pending[j.val]?,
        carryLen := BitVec.ofNat 4 pending.length, lanes := lanes0 }
    status := 0x02, results := [], held := [], channel := channel }

/-- The same registers under another STATUS. -/
def withStatus (status : Byte) (channel : List Word) : State := { ready 0 [] channel with status := status }

/-- What an answer shows, if it is a next state. -/
def seen {β : Type} (look : State → β) : Host.Outcome State Fault Refusal → Option β
  | .next t => some (look t)
  | .fault _ => none
  | .refused _ => none

/-- The bytes `start`, `start + 1`, ... -/
def countUp (start n : Nat) : List Byte := (List.range n).map fun k => BitVec.ofNat 8 (start + k)

/-! ### WellFormed, one term for the one check -/

/-- 30_encoding.md R80: the smallest illegal count. -/
theorem test_wellFormed_refuses_count_17 : ¬ (Instr.update 17 0 0 0 0).WellFormed := by decide
/-- 30_encoding.md R75: BEAT_MAX is legal. -/
theorem test_wellFormed_accepts_count_16 : (Instr.update 16 0 0 0 0).WellFormed := by decide

/-! ### Decoding, the words written out from the formats of 30_encoding.md -/

/-- R73: OP 0001, 28 zeros, then the seed (P3a). -/
theorem test_decode_init :
    decode [0b00010000000000000000000000000000, 0x9E3779B1, 0x40000000] = .command (.init 0x9E3779B1) [0x40000000] := by decide
/-- R74: OP 0010. -/
theorem test_decode_reset : decode [0b00100000000000000000000000000000] = .command .reset [] := by decide
/-- R75: OP 0011, 23 zeros, N = 01010; the data words of the first beat of program P3. -/
theorem test_decode_update :
    decode [0b00110000000000000000000000001010, 0x03020100, 0x07060504, 0x00000908, 0] =
      .command (.update 10 0x03020100 0x07060504 0x00000908 0) [] := by decide
/-- R77: OP 0100. -/
theorem test_decode_digest : decode [0b01000000000000000000000000000000] = .command .digest [] := by decide
/-- FX-11: RESERVED_BITS before BAD_COUNT. -/
theorem test_decode_reserved_before_count : decode [0x30000031, 0, 0, 0, 0] = .rejected .reservedBits := by decide
/-- FX-3: OP 0xF is a one-word packet. -/
theorem test_decode_reserved_opcode : decode [0xF0000000] = .rejected .illegalOpcode := by decide
/-- The opcode table's numbering: the seed's bits count on from bit 32. -/
theorem test_tableWord_init : decodeTableWord 64 0x9E3779B110000000 = some (.init 0x9E3779B1) := by decide
/-- An UPDATE row given 32 bits: its operand words are zeros. -/
theorem test_tableWord_update : decodeTableWord 32 0x30000003 = some (.update 3 0 0 0 0) := by decide

/-! ### One step of each command -/

/-- LC-1: the first command after power-on. -/
theorem test_init_status : seen State.status (step (State.reset.withFetchWord 64 0x10000000)) = some 0x02#8 := by decide
/-- 3.1: lane_init of P1, where v4 wraps to 0. -/
theorem test_init_lanes :
    seen (fun t => t.hasher.lanes) (exec (.init 0x9E3779B1) (ready 33 [0x20] [])) =
      some { v1 := 0xC25ABDD9, v2 := 0x24234428, v3 := 0x9E3779B1, v4 := 0x00000000 } := by decide
/-- LC-4: RESET forgets the stream. -/
theorem test_reset_count :
    seen (fun t => (t.hasher.totalLen, t.hasher.carryLen)) (exec .reset (ready 3 [0x61, 0x62, 0x63] [])) =
      some (0#64, 0#4) := by decide
/-- FX-5: RESET before INIT. -/
theorem test_reset_before_init : seen State.status (step (State.reset.withFetchWord 32 0x20000000)) = some 0x41#8 := by decide
/-- 3.2, row c = 10, N = 16: fill with k = 6, mix, remainder 36..3F. -/
theorem test_update_fill_lanes :
    seen (fun t => (t.hasher.lanes, t.hasher.carryLen))
      (exec (.update 16 0x33323130 0x37363534 0x3B3A3938 0x3F3E3D3C) (ready 10 (countUp 0xA0 10) [])) =
      some ({ v1 := 0x99DA2B84, v2 := 0xA3E4E054, v3 := 0xA4BEAE36, v4 := 0x11232DAA }, 10#4) := by decide
/-- OV-2: the count would reach 2^64. -/
theorem test_update_overflow :
    seen (fun t => (t.status, t.hasher.totalLen))
      (exec (.update 4 0x64636261 0 0 0) (ready 0xFFFFFFFFFFFFFFFC (countUp 0 12) [])) =
      some (0x53#8, 0xFFFFFFFFFFFFFFFC#64) := by decide
/-- Program P2: "abc" under seed 0. -/
theorem test_digest_abc :
    seen State.results (step (ready 3 [0x61, 0x62, 0x63] [0x40000000])) = some [0x32D153FF#32] := by decide
/-- OV-1: a count of 2^64 − 1 converges from the lanes and adds 0xFFFFFFFF. -/
theorem test_digest_full_count :
    seen State.results (exec .digest (ready 0xFFFFFFFFFFFFFFFF (countUp 0 11 ++ [0x61, 0x62, 0x63, 0x64]) [])) =
      some [0x9582C8B4#32] := by decide

/-! ### Functions and views -/

/-- 42_block_mixer.md R151, its example. -/
theorem test_blockMix :
    blockMix lanes0 (Block.ofList (countUp 0 16)) =
      { v1 := 0xF817BCCB, v2 := 0x0222719B, v3 := 0xD4B0C0A4, v4 := 0xDEBB7574 } := by decide
/-- Table 3.4.3, n = 17 under seed 1: the one-shot hash. -/
theorem test_xxh32_17_bytes : xxh32 (countUp 0 17) 1 = 0xCE2E6190 := by decide
/-- 43_finalize_tail_avalanche.md R178, its example "02cc5d05": a leading zero, and digits up to 9 and from 10. -/
theorem test_hexdigest : hexdigest 0x02CC5D05 = [0x30, 0x32, 0x63, 0x63, 0x35, 0x64, 0x30, 0x35] := by decide
/-- FX-15: a faulted block finds a discarded UPDATE's length from OP. -/
theorem test_discard_length :
    seen (fun t => (t.status, t.channel))
      (step (withStatus 0x13 [0x30000001, 0x40000000, 0x40000000, 0x40000000, 0x40000000, 0x40000000])) =
      some (0x13#8, [0x40000000#32]) := by decide
/-- P11: two of an UPDATE's five words are held. -/
theorem test_hold :
    seen (fun t => (t.held, t.hasher.totalLen)) (step (ready 0 [] [0x30000003, 0x00636261])) =
      some ([0x30000003#32, 0x00636261#32], 0#64) := by decide
/-- Program P2's UPDATE line, with its comment. -/
theorem test_assemble_update :
    assembleText ['U', 'P', 'D', 'A', 'T', 'E', ' ', '"', 'a', 'b', 'c', '"', ' ', ';', ' ', 'x'] =
      some [0x30000003, 0x00636261, 0, 0, 0] := by decide

/-- Log entry 9: a number needs a digit. -/
theorem test_number_needs_digit :
    parseNumber ['_'] = none ∧ parseNumber ['0', 'x', '_'] = none ∧ parseNumber ['1', '_', '6'] = some 16 := by decide

/-! ### Witnesses: the hypotheses of each obligation, met together -/

/-- A block 11 bytes into a stream, and one about to fill its block exactly. -/
def pending11 (channel : List Word) : State := ready 11 (countUp 0 11) channel

theorem witness_PowerOnState :
    ∃ s t : State, step s = .next t ∧ s.faulted = true ∧ s.inited = true :=
  ⟨withStatus 0x13 [], _, rfl, by decide, by decide⟩

theorem witness_FirstCommandMustBeInit :
    (∀ sd, Instr.update 16 0 0 0 0 ≠ .init sd) ∧ (Instr.update 16 0 0 0 0).WellFormed := by simp; decide

theorem witness_DecodeInvertsEncode : (Instr.update 16 1 2 3 4).WellFormed ∧ (Instr.update 0 1 2 3 4).WellFormed := by decide

theorem witness_EncodeInvertsDecode : decode [0x30000010, 1, 2, 3, 4, 5] = .command (.update 16 1 2 3 4) [5] := by decide

theorem witness_OpcodeMap :
    decode ((1#4 ++ 0#28) :: [7]) = .command (.init 7) [] ∧ decode ((2#4 ++ 0#28) :: []) = .command .reset [] ∧
    decode ((3#4 ++ 16#28) :: [1, 2, 3, 4]) = .command (.update 16 1 2 3 4) [] ∧
    decode ((4#4 ++ 0#28) :: []) = .command .digest [] := by decide

theorem witness_BeatCarriesItsBytes :
    (countUp 0 0).length ≤ 16 ∧ (countUp 0 16).length ≤ 16 ∧ (countUp 0 3).length ≤ 15 := by decide

theorem witness_StepRunsDecodedCommand :
    (Instr.update 3 0x00636261 0 0 0).WellFormed ∧
    ({ ready 0 [] [0, 0, 0] with held := [0x30000003, 0x00636261] } : State).arrived =
      encode (.update 3 0x00636261 0 0 0) ++ [] := by decide

theorem witness_IncompletePacketIsHeld_waiting : (ready 0 [] []).Waiting ∧ (ready 0 [] [0x30000003, 1, 2, 3]).Waiting := by
  constructor
  · intro cw operands h; cases h
  · intro cw operands h; cases h; decide

theorem witness_IncompletePacketIsHeld_twoParts :
    (Instr.update 3 0x00636261 0 0 0).WellFormed ∧
    encode (.update 3 0x00636261 0 0 0) = [0x30000003, 0x00636261] ++ [0, 0, 0] ∧ ([0, 0, 0] : List Word) ≠ [] ∧
    (ready 0 [] [0x30000003, 0x00636261]).arrived = [0x30000003, 0x00636261] := by decide

/-- One packet for each cause of R202, one that is two at once, and one without a fault; each whole, in a live block. -/
theorem witness_FirstFaultIsReported :
    firstFault 0xF0000000 (ready 0 [] []) = some 1 ∧ firstFault 0x00000000 (ready 0 [] []) = some 1 ∧
    firstFault 0x30000031 (ready 0 [] []) = some 2 ∧ firstFault 0x10000001 (withStatus 0 []) = some 2 ∧
    firstFault 0x30000011 (withStatus 0 []) = some 3 ∧ firstFault 0x40000000 (withStatus 0 []) = some 4 ∧
    firstFault 0x30000001 (ready 0xFFFFFFFFFFFFFFFF (countUp 0 15) []) = some 5 ∧
    firstFault 0x30000010 (ready 0 [] []) = none ∧ firstFault 0x10000000 (withStatus 0 []) = none ∧
    (withStatus 0 []).faulted = false ∧ (ready 0 [] [0x30000010, 0, 0, 0, 0]).faulted = false ∧
    (ready 0 [] [0x30000010, 0, 0, 0, 0]).arrived = [0x30000010, 0, 0, 0, 0] ∧
    packetLen 0x30000010 = 5 ∧ (withStatus 0x13 [0x30000010, 0, 0, 0, 0]).faulted = true := by decide

theorem witness_FaultedBlockDiscards :
    (withStatus 0x13 [0x10000000, 0]).faulted = true ∧ (withStatus 0x13 [0x10000000, 0]).arrived = [0x10000000, 0] ∧
    packetLen 0x10000000 ≤ ([0] : List Word).length + 1 := by decide

theorem witness_EveryPacketFinishes :
    (ready 0 [] [0x30000003, 0x00636261, 0, 0, 0]).arrived = [0x30000003, 0x00636261, 0, 0, 0] ∧
    packetLen 0x30000003 ≤ ([0x00636261, 0, 0, 0] : List Word).length + 1 := by decide

theorem witness_InitResult : (ready 0 [] []).faulted = false ∧ (withStatus 0x00 []).faulted = false := by decide

theorem witness_Ready : (pending11 []).Ready := by unfold State.Ready; decide

theorem witness_ResetResult : (pending11 []).Ready := witness_Ready

theorem witness_ResetIsIdempotent : ∃ t, exec .reset (pending11 []) = .next t := ⟨_, rfl⟩

theorem witness_ResetEqualsFreshInit : (pending11 []).Ready ∧ StatusOk (pending11 []).status :=
  ⟨witness_Ready, by unfold StatusOk; decide⟩

theorem witness_OnlyInitWritesSeed :
    ∃ t, step (ready 0 [] [0x10000000, 5]) = .next t ∧ t.hasher.seed ≠ (ready 0 [] [0x10000000, 5]).hasher.seed :=
  ⟨_, rfl, by decide⟩

/-- `carry_len + N` of 15, 16 and 31, and a count that reaches 2^64 − 1. -/
theorem witness_UpdateResult :
    (pending11 []).Ready ∧ (pending11 []).hasher.carryLen.toNat = 11 ∧
    (pending11 []).hasher.carryLen.toNat + (4 : BitVec 5).toNat < 16 ∧
    16 ≤ (pending11 []).hasher.carryLen.toNat + (5 : BitVec 5).toNat ∧
    (ready 15 (countUp 0 15) []).hasher.carryLen.toNat + (16 : BitVec 5).toNat = 31 ∧
    (16 : BitVec 5).toNat ≤ 16 ∧
    (ready 0xFFFFFFFFFFFFFFFB (countUp 0 11) []).hasher.totalLen.toNat + (4 : BitVec 5).toNat = 2 ^ 64 - 1 :=
  ⟨witness_Ready, by decide⟩

theorem witness_EmptyUpdateChangesNothing :
    (pending11 []).Ready ∧ (withStatus 0x00 []).faulted = false ∧ (withStatus 0x00 []).inited = false :=
  ⟨witness_Ready, by decide⟩

/-- The junk beat of 95_test_vectors.md 3.2 against the plain one. -/
theorem witness_UnusedDataBytesAreIgnored :
    ∀ k, k < (3 : BitVec 5).toNat →
      (0x9ABCDEF0#32 ++ 0x12345678#32 ++ 0xFFFFFFFF#32 ++ 0xDD636261#32).extractLsb' (8 * k) 8 =
        (0#32 ++ 0#32 ++ 0#32 ++ 0x00636261#32).extractLsb' (8 * k) 8 := by decide

theorem witness_BeatsAbsorbTheirBytes :
    let chunks := [countUp 0 16, [], countUp 16 5]
    let s := pending11 (encodeAll (chunks.map beat) ++ [0x40000000])
    s.Ready ∧ (∀ d ∈ chunks, d.length ≤ 16) ∧ s.hasher.totalLen.toNat + chunks.flatten.length ≤ 2 ^ 64 - 1 ∧
      s.arrived = encodeAll (chunks.map beat) ++ [0x40000000] :=
  ⟨witness_Ready, by decide, by decide, rfl⟩

/-- Two lane files and blocks that agree for lane 2 alone. -/
theorem witness_LanesAreIndependent :
    let v' : Lanes := { v1 := 1, v2 := lanes0.v2, v3 := 3, v4 := 4 }
    let b := Block.ofList (countUp 0 16)
    let b' := Block.ofList ([9, 9, 9, 9] ++ countUp 4 4 ++ [9, 9, 9, 9, 9, 9, 9, 9])
    lanes0.v2 = v'.v2 ∧ (∀ j : Fin 16, j.val / 4 = 1 → b[j] = b'[j]) ∧ b ≠ b' := by decide

/-- The same with every lane's part met, each by its own pair. -/
theorem witness_LanesAreIndependent_eachLane :
    let b := Block.ofList (countUp 0 16)
    ∀ lane : Fin 4, ∃ k : Fin 4,
      let b' := Block.ofList ((countUp 0 16).map fun x => if x.toNat / 4 = k.val then 9 else x)
      (∀ j : Fin 16, j.val / 4 = lane.val → b[j] = b'[j]) ∧ b ≠ b' := by decide

/-- Counts on both sides of the converge test, with every number of tail words and bytes. -/
theorem witness_DigestResult :
    (ready 15 (countUp 0 15) []).Ready ∧ (ready 16 [] []).Ready ∧
    (ready 15 (countUp 0 15) []).hasher.totalLen.toNat < 16 ∧ 16 ≤ (ready 16 [] []).hasher.totalLen.toNat := by
  unfold State.Ready; decide

theorem witness_DigestRepeats : (pending11 []).Ready := witness_Ready

theorem witness_DigestIgnoresHighCount :
    (ready 0x100000003 [] []).hasher.totalLen.toNat % 2 ^ 32 = (0x7700000003 : TotalLen).toNat % 2 ^ 32 ∧
    (16 ≤ (ready 0x100000003 [] []).hasher.totalLen.toNat ↔ 16 ≤ (0x7700000003 : TotalLen).toNat) := by decide

theorem witness_HexdigestIsHexOfDigestBytes :
    hexchar 9 = 0x39 ∧ hexchar 10 = 0x61 ∧ digestBytes 0x02CC5D05 = digestBytes 0x02CC5D05 := by decide

theorem witness_CommandsWriteOnlyTheirRegisters :
    (∃ t, exec (.init 7) (pending11 []) = .next t ∧ t.faulted = false) ∧
    (∃ t, exec .reset (pending11 []) = .next t ∧ t.faulted = false) ∧
    (∃ t, exec (.update 4 1 0 0 0) (pending11 []) = .next t ∧ t.faulted = false ∧
      (pending11 []).hasher.carryLen.toNat + (4 : BitVec 5).toNat < 16) ∧
    (∃ t, exec .digest (pending11 []) = .next t ∧ t.faulted = false) ∧
    ∃ t, exec .digest (withStatus 0x00 []) = .next t ∧ t.faulted = true := by
  refine ⟨⟨_, rfl, ?_⟩, ⟨_, rfl, ?_⟩, ⟨_, rfl, ?_⟩, ⟨_, rfl, ?_⟩, ⟨_, rfl, ?_⟩⟩ <;> decide

theorem witness_FaultingCommandsChangeOnlyStatus :
    ((withStatus 0x00 []).faulted = false ∧ (withStatus 0x00 []).inited = false) ∧
    16 < (17 : BitVec 5).toNat ∧ (16 : BitVec 5).toNat ≤ 16 ∧
    (ready 0xFFFFFFFFFFFFFFFF (countUp 0 15) []).faulted = false ∧
    (ready 0xFFFFFFFFFFFFFFFF (countUp 0 15) []).inited = true ∧
    2 ^ 64 - 1 < (ready 0xFFFFFFFFFFFFFFFF (countUp 0 15) []).hasher.totalLen.toNat + (1 : BitVec 5).toNat := by decide

theorem witness_StatusBitsAreSticky :
    (∃ t, step (withStatus 0x13 []) = .next t ∧ (withStatus 0x13 []).faulted = true ∧ (withStatus 0x13 []).inited = true) ∧
    (∃ t, step (withStatus 0x00 [0x10000000, 0]) = .next t ∧ (withStatus 0x00 [0x10000000, 0]).inited = false ∧ t.inited = true) ∧
    ∃ t, step (withStatus 0x00 [0x20000000]) = .next t ∧
      causeField t.status ≠ causeField (withStatus 0x00 [0x20000000]).status :=
  ⟨⟨_, rfl, by decide⟩, ⟨_, rfl, by decide⟩, ⟨_, rfl, by decide⟩⟩

theorem witness_OnlyDigestEmits :
    ∃ t, step (pending11 [0x40000000]) = .next t ∧ t.results ≠ (pending11 [0x40000000]).results := ⟨_, rfl, by decide⟩

/-- INIT, RESET (of a block that has mixed) and an UPDATE that completes a block each change the lanes. -/
theorem witness_LanesChangeOnlyByMixingOrReset :
    (∃ t, step (pending11 [0x10000000, 5]) = .next t ∧ t.hasher.lanes ≠ lanes0) ∧
    (∃ t, step { pending11 [0x20000000] with
        hasher := { (pending11 []).hasher with lanes := { v1 := 1, v2 := 2, v3 := 3, v4 := 4 } } } = .next t ∧
      t.hasher.lanes ≠ { v1 := 1, v2 := 2, v3 := 3, v4 := 4 }) ∧
    ∃ t, step (pending11 [0x30000005, 0x00010203, 0, 0, 0]) = .next t ∧ t.hasher.lanes ≠ lanes0 :=
  ⟨⟨_, rfl, by decide⟩, ⟨_, rfl, by decide⟩, ⟨_, rfl, by decide⟩⟩

/-- The invariant holds of an initialised block inside a stream, not only at power-on. -/
theorem witness_StepKeepsInvariant :
    (pending11 [0x40000000]).Inv ∧ ∃ t, step (pending11 [0x40000000]) = .next t := by
  refine ⟨⟨?_, ?_, ?_, ?_⟩, _, rfl⟩
  · unfold StatusOk; decide
  · intro cw operands h; cases h
  · intro _; exact ⟨countUp 0 11, by decide, by decide⟩
  · decide

theorem witness_InvariantBoundsTheBuffer : (pending11 [0x40000000]).Inv ∧ (pending11 [0x40000000]).inited = true :=
  ⟨witness_StepKeepsInvariant.1, by decide⟩

theorem witness_ShortStreamConvergesFromSeed :
    (pending11 [0x40000000]).Inv ∧ (pending11 [0x40000000]).inited = true ∧
    (pending11 [0x40000000]).hasher.totalLen.toNat < 16 :=
  ⟨witness_StepKeepsInvariant.1, by decide⟩

/-- Two blocks that differ in position 15, which is stale. -/
theorem witness_StaleContentsAreUnobservable :
    let s := pending11 [0x40000000]
    let s' : State := { s with hasher := { s.hasher with buf := s.hasher.buf.set 15 (some 0xEE) } }
    s.Alike s' ∧ s ≠ s' :=
  ⟨⟨rfl, rfl, rfl, rfl, fun _ => ⟨rfl, rfl, rfl, rfl, by unfold SameValid; decide⟩⟩, by decide⟩

theorem witness_HashProgramEmitsOneShotHash :
    let s := withStatus 0x00 (encodeAll (hashProgram (countUp 0 17) 1) ++ [0x20000000])
    s.faulted = false ∧ (countUp 0 17).length < 2 ^ 64 ∧
      s.arrived = encodeAll (hashProgram (countUp 0 17) 1) ++ [0x20000000] := by decide

theorem witness_AssemblerPackets :
    (countUp 0 16).length ≤ 16 ∧ 16 < (countUp 0 17).length ∧ 2 ^ 32 - 1 < 2 ^ 32 ∧
    (∀ v ∈ [0, 2 ^ 32 - 1], v < 2 ^ 32) ∧ ¬ ∀ v ∈ [0, 2 ^ 32], v < 2 ^ 32 := by decide

theorem witness_InstancesAreIndependent :
    let p : Platform := { links := [⟨pending11 [], none, 0⟩, ⟨pending11 [0x40000000], some 3, 0⟩] }
    (∃ t, step p.links[1].block = .next t) ∧ (∃ m, p.links[1].send 4 [0x20000000] = .next m) ∧
    ∃ j, j ≠ 1 ∧ j < p.links.length :=
  ⟨⟨_, rfl⟩, ⟨_, rfl⟩, 0, by decide, by decide⟩

theorem witness_HostsInterleaveWholePackets :
    (pending11 [0x40000000]).midPacket = false ∧ (pending11 [0x40000000, 0x30000003, 1]).midPacket = true ∧
    ({ block := pending11 [0x30000003], lastSender := some 1, wordsRead := 0 } : Link).lastSender = some 1 ∧
    ({ block := pending11 [0x30000003], lastSender := some 1, wordsRead := 0 } : Link).lastSender ≠ some 2 ∧
    ([0x40000000] : List Word) ≠ [] ∧
    packetLen 0x30000011 = ([0, 0, 0, 0] : List Word).length + 1 ∧ packetLen 0xF0000000 = ([] : List Word).length + 1 := by
  decide

/-- One word read of three, two unread; and none unread. -/
theorem witness_HostReadsResultsInOrder :
    let l : Link := { block := { pending11 [] with results := [7, 8, 9] }, lastSender := none, wordsRead := 1 }
    l.wordsRead + 2 ≤ l.block.results.length ∧ (l.readResults 2).1 = [8, 9] ∧
    (l.readResults 2).2.block.results.length ≤ (l.readResults 2).2.wordsRead := by decide

end Sys2Proof.Tests
end

section
/-! Words and their bytes: joining the four bytes of a word little-endian gives the word back (20_memory.md R57,
30_encoding.md R76). -/

namespace Sys2Proof.Machine

/-- The four bytes of a word side by side, the last one highest, are the word. -/
theorem append_extractBytes (w : Word) :
    w.extractLsb' 24 8 ++ w.extractLsb' 16 8 ++ w.extractLsb' 8 8 ++ w.extractLsb' 0 8 = w := by
  rw [BitVec.extractLsb'_append_extractLsb'_eq_extractLsb' (by rfl),
    BitVec.extractLsb'_append_extractLsb'_eq_extractLsb' (by rfl),
    BitVec.extractLsb'_append_extractLsb'_eq_extractLsb' (by rfl)]
  exact BitVec.extractLsb'_eq_self

/-- The little-endian word is its four bytes side by side, the last one highest (00_scope.md R12). -/
theorem le32_eq_append (b0 b1 b2 b3 : Byte) : le32 b0 b1 b2 b3 = b3 ++ b2 ++ b1 ++ b0 := by
  apply BitVec.eq_of_getLsbD_eq
  intro j hj
  simp only [le32, BitVec.getLsbD_append, BitVec.getLsbD_or, BitVec.getLsbD_shiftLeft, BitVec.getLsbD_setWidth]
  -- Which byte bit `j` lies in decides both sides: every other byte has no bit there.
  grind

/-- Byte `4q + r` of an UPDATE packet is byte `r` of its data word `q` (30_encoding.md R76). -/
theorem dataByte_four_mul_add (d0 d1 d2 d3 : Word) (q : Nat) {r : Nat} (hr : r < 4) :
    dataByte d0 d1 d2 d3 (4 * q + r) = (dataWord d0 d1 d2 d3 q).extractLsb' (8 * r) 8 := by
  rw [dataByte, show (4 * q + r) / 4 = q by omega, show (4 * q + r) % 4 = r by omega]

/-- Settles O8: the four bytes of a data word are its four octets, so joining them gives the word. -/
theorem dataBytesJoinToDataWords : Obligations.DataBytesJoinToDataWords := by
  intro d0 d1 d2 d3 q
  have hbyte {r : Nat} (hr : r < 4) := dataByte_four_mul_add d0 d1 d2 d3 q hr
  have h0 : dataByte d0 d1 d2 d3 (4 * q) = (dataWord d0 d1 d2 d3 q).extractLsb' 0 8 := hbyte (r := 0) (by decide)
  rw [h0, hbyte (by decide : 1 < 4), hbyte (by decide : 2 < 4), hbyte (by decide : 3 < 4), le32_eq_append]
  exact append_extractBytes _

end Sys2Proof.Machine
end

section
/-! Registers that differ only in stale carry-buffer positions (10_state.md R36): no operation of the datapath tells them
apart. -/

namespace Sys2Proof.Machine

namespace Hasher.Same
variable {h h' : Hasher}

theorem refl (h : Hasher) : h.Same h := ⟨rfl, rfl, rfl, rfl, fun _ _ => rfl⟩

theorem bufByte_eq (hs : h.Same h') {j : Nat} (hj : j < h.carryLen.toNat) : h.bufByte j = h'.bufByte j := by
  have hj16 : j < 16 := hj.trans h.carryLen_lt
  have hcell : h.buf[j] = h'.buf[j] := hs.buf ⟨j, hj16⟩ hj
  rw [h.bufByte_eq hj16, h'.bufByte_eq hj16, hcell]

theorem validBytes_eq (hs : h.Same h') : h.validBytes = h'.validBytes := by
  unfold Hasher.validBytes
  rw [← hs.carryLen]
  exact List.map_congr_left fun j hj => hs.bufByte_eq (List.mem_range.mp hj)

theorem pendingThen_eq (hs : h.Same h') (d : List Byte) : h.pendingThen d = h'.pendingThen d := by
  unfold Hasher.pendingThen; rw [hs.validBytes_eq]

/-- DIGEST reads the count, the lanes and the valid bytes only. -/
theorem intdigest_eq (hs : h.Same h') : intdigest h = intdigest h' := by
  simp only [intdigest, converge, hs.lanes, hs.totalLen, hs.validBytes_eq]

/-- `reset_state` writes every register but the seed. -/
theorem resetState (hs : h.Same h') : h.resetState.Same h'.resetState := by
  have he : h.resetState = h'.resetState := by simp only [Hasher.resetState, hs.seed]
  rw [he]; exact refl _

/-- The buffer update_alg leaves: a short input is written behind the valid bytes, a longer one is rewritten from the valid
bytes and the input. -/
theorem updateAlg_buf (hs : h.Same h') (d : List Byte) :
    SameValid (h.updateAlg d).carryLen.toNat (h.updateAlg d).buf (h'.updateAlg d).buf := by
  intro j hj
  rw [h.updateAlg_carryLen_toNat] at hj
  rcases Nat.lt_or_ge (h.carryLen.toNat + d.length) 16 with hshort | hblocks
  · rw [h.updateAlg_buf_short d hshort, h'.updateAlg_buf_short d (hs.carryLen ▸ hshort), ← hs.carryLen]
    rw [Nat.mod_eq_of_lt hshort] at hj
    simp only [Fin.getElem_fin, bufWrite_getElem]
    split
    · rfl
    · exact hs.buf j (by omega)
  · rw [h.updateAlg_buf_blocks d hblocks, h'.updateAlg_buf_blocks d (hs.carryLen ▸ hblocks), ← hs.carryLen,
      hs.pendingThen_eq]

theorem updateAlg (hs : h.Same h') (d : List Byte) : (h.updateAlg d).Same (h'.updateAlg d) where
  seed := by simp only [Hasher.updateAlg_seed, hs.seed]
  lanes := by simp only [Hasher.updateAlg_lanes, hs.lanes, hs.carryLen, hs.pendingThen_eq]
  totalLen := by simp only [Hasher.updateAlg_totalLen, hs.totalLen]
  carryLen := by simp only [Hasher.updateAlg_carryLen, hs.carryLen]
  buf := hs.updateAlg_buf d

end Hasher.Same

end Sys2Proof.Machine
end

section
/-! Blocks no sequence of commands can tell apart: every operation of a step, every step, and every run keeps them so
(00_scope.md R14, 10_state.md R30, R36). -/

namespace Sys2Proof.Machine

namespace State.Alike
variable {s s' : State}

theorem faulted_eq (ha : s.Alike s') : s.faulted = s'.faulted := congrArg faultBit ha.status

theorem inited_eq (ha : s.Alike s') : s.inited = s'.inited := congrArg initedBit ha.status

theorem arrived_eq (ha : s.Alike s') : s.arrived = s'.arrived := by
  simp only [State.arrived, ha.held, ha.channel]

theorem outputs_eq (ha : s.Alike s') : s.outputs = s'.outputs := by
  simp only [State.outputs, ha.status, ha.results]

theorem holdWords (ha : s.Alike s') : s.holdWords.Alike s'.holdWords :=
  { ha with held := ha.arrived_eq, channel := rfl }

theorem takeWords (ha : s.Alike s') (n : Nat) : (s.takeWords n).Alike (s'.takeWords n) :=
  { ha with held := rfl, channel := congrArg (List.drop n) ha.arrived_eq }

theorem raiseFault (ha : s.Alike s') (c : Cause) : (s.raiseFault c).Alike (s'.raiseFault c) :=
  { ha with
    status := congrArg (setFault c) ha.status
    hasher := fun hi => ha.hasher (s.raiseFault_inited c ▸ hi) }

theorem withHasher (ha : s.Alike s') {h h' : Hasher} (hs : h.Same h') : (s.withHasher h).Alike (s'.withHasher h') :=
  { ha with hasher := fun _ => hs }

/-- INIT makes the registers hold values, so they must agree already. -/
theorem markInited (ha : s.Alike s') (hs : s.hasher.Same s'.hasher) : s.markInited.Alike s'.markInited :=
  { ha with
    status := congrArg setInited ha.status
    hasher := fun _ => hs }

theorem emit (ha : s.Alike s') (r : Word) : (s.emit r).Alike (s'.emit r) :=
  { ha with results := congrArg (· ++ [r]) ha.results }

theorem unlessFaulted {t t' : State} (ha : s.Alike s') (ht : t.Alike t') :
    (s.unlessFaulted t).Alike (s'.unlessFaulted t') := by
  cases hf : s.faulted
  · rw [unlessFaulted_of_live t hf, unlessFaulted_of_live t' (ha.faulted_eq ▸ hf)]; exact ht
  · rw [unlessFaulted_of_faulted t hf, unlessFaulted_of_faulted t' (ha.faulted_eq ▸ hf)]; exact ha

/-- The guard of R205 lets a command reach the registers only where they hold values, and there they agree. -/
theorem ifInited {t t' : State} (ha : s.Alike s') (ht : s.hasher.Same s'.hasher → t.Alike t') :
    (s.ifInited t).Alike (s'.ifInited t') := by
  cases hi : s.inited
  · rw [ifInited_of_not t hi, ifInited_of_not t' (ha.inited_eq ▸ hi)]; exact ha.raiseFault _
  · rw [ifInited_of_inited t hi, ifInited_of_inited t' (ha.inited_eq ▸ hi)]; exact ht (ha.hasher hi)

theorem execInit (ha : s.Alike s') (seed : Word) :
    ∃ t t', execInit seed s = .next t ∧ execInit seed s' = .next t' ∧ t.Alike t' :=
  have hs : (s.hasher.withSeed seed).resetState.Same (s'.hasher.withSeed seed).resetState := Hasher.Same.refl _
  ⟨_, _, rfl, rfl, ha.unlessFaulted ((ha.withHasher hs).markInited hs)⟩

theorem execReset (ha : s.Alike s') :
    ∃ t t', execReset s = .next t ∧ execReset s' = .next t' ∧ t.Alike t' :=
  ⟨_, _, rfl, rfl, ha.unlessFaulted (ha.ifInited fun hs => ha.withHasher hs.resetState)⟩

theorem execUpdate (ha : s.Alike s') (n : BitVec 5) (d0 d1 d2 d3 : Word) :
    ∃ t t', execUpdate n d0 d1 d2 d3 s = .next t ∧ execUpdate n d0 d1 d2 d3 s' = .next t' ∧ t.Alike t' := by
  refine ⟨_, _, rfl, rfl, ha.unlessFaulted ?_⟩
  split
  · exact ha.raiseFault _
  · refine ha.ifInited fun hs => ?_
    rw [← hs.totalLen]
    split
    · exact ha.raiseFault _
    · exact ha.withHasher (hs.updateAlg _)

theorem execDigest (ha : s.Alike s') :
    ∃ t t', execDigest s = .next t ∧ execDigest s' = .next t' ∧ t.Alike t' :=
  ⟨_, _, rfl, rfl, ha.unlessFaulted (ha.ifInited fun hs => by rw [hs.intdigest_eq]; exact ha.emit _)⟩

theorem exec (ha : s.Alike s') (i : Instr) : ∃ t t', exec i s = .next t ∧ exec i s' = .next t' ∧ t.Alike t' := by
  cases i with
  | init seed => exact ha.execInit seed
  | reset => exact ha.execReset
  | update n d0 d1 d2 d3 => exact ha.execUpdate n d0 d1 d2 d3
  | digest => exact ha.execDigest

/-- Both blocks have the same words before them and the same FAULT, so both go the same way of `State.fetch_cases`. -/
theorem step (ha : s.Alike s') : ∃ t t', step s = .next t ∧ step s' = .next t' ∧ t.Alike t' := by
  have hw := ha.arrived_eq
  have hff := ha.faulted_eq
  unfold Machine.step
  rcases s.fetch_cases with ⟨hh, hs⟩ |
    ⟨cw, operands, he, hl, ⟨hf, hs⟩ | ⟨hf, i, rest, hd, hs⟩ | ⟨hf, r, c, hd, hc, hs⟩⟩
  · rw [hs, fetch_hold (hw ▸ hh)]
    exact ⟨_, _, rfl, rfl, ha.holdWords⟩
  · rw [hs, fetch_discard (hw ▸ he) hl (hff ▸ hf)]
    exact ⟨_, _, rfl, rfl, ha.takeWords (packetLen cw)⟩
  · rw [hs, fetch_run (hw ▸ he) (hff ▸ hf) hd]
    exact (ha.takeWords (packetLen cw)).exec i
  · rw [hs, fetch_illegal (hw ▸ he) (hff ▸ hf) hd hc]
    exact ⟨_, _, rfl, rfl, (ha.takeWords (packetLen cw)).raiseFault c⟩

end State.Alike

theorem stepMany_zero (s : State) : stepMany 0 s = .next s := rfl

theorem run_succ_of_next {M : Host.Core} {s t : M.State} (h : M.step s = .next t) (k : Nat) :
    M.run (k + 1) s = M.run k t := by
  rw [Host.Core.run, h]

theorem stepMany_succ {s t : State} (h : step s = .next t) (k : Nat) : stepMany (k + 1) s = stepMany k t :=
  run_succ_of_next (M := core) h k

theorem State.Alike.stepMany {s s' : State} (ha : s.Alike s') (k : Nat) :
    ∃ t t', stepMany k s = .next t ∧ stepMany k s' = .next t' ∧ t.Alike t' := by
  induction k generalizing s s' with
  | zero => exact ⟨s, s', stepMany_zero s, stepMany_zero s', ha⟩
  | succ k ih =>
    obtain ⟨u, u', hu, hu', hau⟩ := ha.step
    rw [stepMany_succ hu, stepMany_succ hu']
    exact ih hau

/-- No register holds a value at power-on, so any two contents are alike (70_reset_and_hazards.md R230). -/
theorem State.powerOn_alike (seed seed' : Word) (lanes lanes' : Lanes) (totalLen totalLen' : TotalLen)
    (carryLen carryLen' : BitVec 4) (waiting : List Word) :
    (State.powerOn seed lanes totalLen carryLen waiting).Alike
      (State.powerOn seed' lanes' totalLen' carryLen' waiting) where
  status := rfl
  results := rfl
  held := rfl
  channel := rfl
  hasher := by simp

/-- Settles O43: each operation of a step keeps two blocks alike, and alike blocks show the same outputs. -/
theorem staleContentsAreUnobservable : Obligations.StaleContentsAreUnobservable := by
  intro s s' ha
  obtain ⟨t, t', ht, ht', hat⟩ := ha.step
  exact ⟨t, t', ht, ht', hat, hat.outputs_eq⟩

/-- Settles O44: any two power-on states are alike, and every run keeps them so. -/
theorem powerOnContentsAreUnobservable : Obligations.PowerOnContentsAreUnobservable := by
  intro seed lanes totalLen carryLen seed' lanes' totalLen' carryLen' waiting k
  obtain ⟨t, t', ht, ht', hat⟩ :=
    (State.powerOn_alike seed seed' lanes lanes' totalLen totalLen' carryLen carryLen' waiting).stepMany k
  exact ⟨t, t', ht, ht', hat.outputs_eq⟩

end Sys2Proof.Machine
end

section
/-! The closed form of a stream's registers (10_state.md R40): its fields, the bytes it leaves pending, and how update_alg
extends it. -/

namespace Sys2Proof.Machine

/-- Extensionality: datapath registers are compared one by one. -/
theorem Hasher.eq_of_registers {h h' : Hasher} (hseed : h.seed = h'.seed) (hlen : h.totalLen = h'.totalLen)
    (hbuf : h.buf = h'.buf) (hcarry : h.carryLen = h'.carryLen) (hlanes : h.lanes = h'.lanes) : h = h' := by
  cases h; cases h'; simp_all

section streamHasher
variable (seed : Word) (s : List Byte)

@[simp] theorem streamHasher_seed : (streamHasher seed s).seed = seed := rfl
@[simp] theorem streamHasher_totalLen : (streamHasher seed s).totalLen = BitVec.ofNat 64 s.length := rfl
@[simp] theorem streamHasher_lanes :
    (streamHasher seed s).lanes = mixBlocks (laneInit seed) s (s.length / 16) := rfl
@[simp] theorem streamHasher_carryLen : (streamHasher seed s).carryLen = BitVec.ofNat 4 (s.length % 16) := rfl

@[simp] theorem streamHasher_buf_getElem (j : Nat) (hj : j < 16) :
    (streamHasher seed s).buf[j] = s[16 * (s.length / 16) + j]? := by
  simp [streamHasher]

theorem streamHasher_carryLen_toNat : (streamHasher seed s).carryLen.toNat = s.length % 16 := by
  rw [streamHasher_carryLen, BitVec.toNat_ofNat]; omega

/-- The pending bytes are those after the last whole block (R34). -/
theorem streamHasher_validBytes : (streamHasher seed s).validBytes = s.drop (16 * (s.length / 16)) := by
  apply List.ext_getElem?
  intro j
  rw [Hasher.validBytes_getElem?, streamHasher_carryLen_toNat, List.getElem?_drop]
  split
  · next hj =>
    rw [Hasher.bufByte_eq _ (by omega), streamHasher_buf_getElem, List.getElem?_eq_getElem (by omega), Option.getD_some]
  · rw [List.getElem?_eq_none (by omega)]

/-- The pending bytes and the input are what follows the last whole block of the stream. -/
theorem streamHasher_pendingThen (d : List Byte) :
    (streamHasher seed s).pendingThen d = (s ++ d).drop (16 * (s.length / 16)) := by
  rw [Hasher.pendingThen, streamHasher_validBytes, List.drop_append_of_le_length (Nat.mul_div_le _ _)]

/-- No block mixed: the registers of the empty stream are those of `reset_state` (R101). -/
theorem resetState_eq_streamHasher (h : Hasher) : h.resetState = streamHasher h.seed [] :=
  Hasher.eq_of_registers h.resetState_seed rfl (Vector.ext fun j hj => by simp) rfl rfl

/-- The whole blocks of the longer stream: those of the stream, then those of the pending bytes and the input. -/
theorem length_append_div (d : List Byte) :
    (s ++ d).length / 16 = s.length / 16 + (s.length % 16 + d.length) / 16 := by
  rw [List.length_append]; omega

theorem updateAlg_streamHasher_totalLen (d : List Byte) :
    ((streamHasher seed s).updateAlg d).totalLen = (streamHasher seed (s ++ d)).totalLen := by
  rw [Hasher.updateAlg_totalLen, streamHasher_totalLen, streamHasher_totalLen, List.length_append, BitVec.ofNat_add]

theorem updateAlg_streamHasher_carryLen (d : List Byte) :
    ((streamHasher seed s).updateAlg d).carryLen = (streamHasher seed (s ++ d)).carryLen := by
  rw [Hasher.updateAlg_carryLen, streamHasher_carryLen_toNat, streamHasher_carryLen, List.length_append]
  congr 1; omega

theorem updateAlg_streamHasher_lanes (d : List Byte) :
    ((streamHasher seed s).updateAlg d).lanes = (streamHasher seed (s ++ d)).lanes := by
  rw [Hasher.updateAlg_lanes, streamHasher_pendingThen, streamHasher_carryLen_toNat, streamHasher_lanes,
    streamHasher_lanes, length_append_div, mixBlocks_add, mixBlocks_append _ _ _ _ (Nat.mul_div_le _ _)]

/-- A short input is written behind the pending bytes; one that completes a block leaves what follows the last block. -/
theorem updateAlg_streamHasher_buf (d : List Byte) :
    ((streamHasher seed s).updateAlg d).buf = (streamHasher seed (s ++ d)).buf := by
  apply Vector.ext
  intro j hj
  have hc := streamHasher_carryLen_toNat seed s
  rw [streamHasher_buf_getElem, length_append_div]
  rcases Nat.lt_or_ge (s.length % 16 + d.length) 16 with hshort | hblocks
  · simp only [Hasher.updateAlg_buf_short _ _ (hc ▸ hshort), bufWrite_getElem, hc, Nat.div_eq_of_lt hshort, Nat.add_zero,
      streamHasher_buf_getElem]
    split
    · rw [List.getElem?_append_right (by omega)]; congr 1; omega
    · next hout =>
      rcases Nat.lt_or_ge j (s.length % 16) with hlt | hge
      · rw [List.getElem?_append_left (by omega)]
      · rw [List.getElem?_eq_none (by omega), List.getElem?_eq_none (by simp; omega)]
  · simp only [Hasher.updateAlg_buf_blocks _ _ (hc ▸ hblocks), Vector.getElem_ofFn, hc, streamHasher_pendingThen,
      List.getElem?_drop]
    congr 1; omega

end streamHasher

/-- Settles O25: register by register, from what update_alg leaves in each (`Hasher.updateAlg_lanes` and its siblings). -/
theorem updateExtendsStream : Obligations.UpdateExtendsStream := fun seed s d =>
  Hasher.eq_of_registers (Hasher.updateAlg_seed _ _) (updateAlg_streamHasher_totalLen seed s d)
    (updateAlg_streamHasher_buf seed s d) (updateAlg_streamHasher_carryLen seed s d)
    (updateAlg_streamHasher_lanes seed s d)

end Sys2Proof.Machine
end

section
/-! Whatever the decoder reads as a command is a well-formed packet (30_encoding.md R82). -/

namespace Sys2Proof

/-- A check of the decoder that ended in a command was passed. -/
theorem command_of_ite_command {p : Prop} [Decidable p] {i j : Instr} {rest later : List Word} {r : Reject}
    (h : (if p then Decoded.command j later else .rejected r) = .command i rest) : p ∧ j = i ∧ later = rest := by
  split at h
  · next hp => cases h; exact ⟨hp, rfl, rfl⟩
  · cases h

/-- Whatever the decoder reads as a command is that command's packet, with the words after it (30_encoding.md R82). -/
theorem eq_encode_append_of_decode {ws rest : List Word} {i : Instr} (h : decode ws = .command i rest) :
    i.WellFormed ∧ ws = encode i ++ rest := by
  rcases ws with - | ⟨cw, operands⟩
  · cases h
  rcases opcodeOf_cases cw with ⟨ho, hk⟩ | ⟨ho, hk⟩ | ⟨ho, hk⟩ | ⟨ho, hk⟩ | ⟨ho, -⟩ <;> simp only [decode, ho] at h
  · rcases operands with - | ⟨seed, later⟩
    · cases h
    · obtain ⟨ha, rfl, rfl⟩ := command_of_ite_command h
      exact ⟨rfl, by rw [header_eq hk ha]; rfl⟩
  · obtain ⟨ha, rfl, rfl⟩ := command_of_ite_command h
    exact ⟨rfl, by rw [header_eq hk ha]; rfl⟩
  · rcases operands with - | ⟨d0, - | ⟨d1, - | ⟨d2, - | ⟨d3, later⟩⟩⟩⟩
    iterate 4 cases h
    simp only [ite_not] at h
    split at h
    · next hr =>
      rw [← ite_not] at h
      obtain ⟨hn, rfl, rfl⟩ := command_of_ite_command h
      exact ⟨decide_eq_true (Nat.le_of_not_lt hn), congrArg (· :: _) (updateHeader_eq hk hr)⟩
    · cases h
  · obtain ⟨ha, rfl, rfl⟩ := command_of_ite_command h
    exact ⟨rfl, by rw [header_eq hk ha]; rfl⟩
  · cases h

end Sys2Proof
end

section
/-! What one step does to a block, said once with the packet's words named (30_encoding.md R82, R83). -/

namespace Sys2Proof.Machine

/-- What one step can do to a block, and when. `n` is the length of the packet taken. -/
inductive StepEffect (s : State) : State → Prop
  /-- No whole packet has arrived (30_encoding.md R84). -/
  | hold (hw : s.Waiting) : StepEffect s s.holdWords
  /-- A faulted block discards the packet (60_exceptions.md R204). -/
  | discard (n : Nat) (hf : s.faulted = true) : StepEffect s (s.takeWords n)
  /-- The packet faults (R203): it is no command, or a command that may not run. -/
  | fault (n : Nat) (c : Cause) (hf : s.faulted = false) : StepEffect s ((s.takeWords n).raiseFault c)
  /-- INIT (40_lifecycle.md R102). -/
  | init (n : Nat) (seed : Word) (rest : List Word) (hf : s.faulted = false)
      (ha : s.arrived = encode (.init seed) ++ rest) :
      StepEffect s ((s.takeWords n).withHasher (s.hasher.withSeed seed).resetState).markInited
  /-- RESET (40_lifecycle.md R103). -/
  | reset (n : Nat) (rest : List Word) (hs : s.Ready) (ha : s.arrived = encode .reset ++ rest) :
      StepEffect s ((s.takeWords n).withHasher s.hasher.resetState)
  /-- UPDATE of a legal count that fits the byte counter (41_carry_buffer_mux.md R123). -/
  | update (n : Nat) (count : BitVec 5) (d0 d1 d2 d3 : Word) (rest : List Word) (hs : s.Ready)
      (hc : count.toNat ≤ 16) (ht : s.hasher.totalLen.toNat + count.toNat < 2 ^ 64)
      (ha : s.arrived = encode (.update count d0 d1 d2 d3) ++ rest) :
      StepEffect s ((s.takeWords n).withHasher (s.hasher.updateAlg (dataBytes count d0 d1 d2 d3)))
  /-- DIGEST (43_finalize_tail_avalanche.md R176). -/
  | digest (n : Nat) (rest : List Word) (hs : s.Ready) (ha : s.arrived = encode .digest ++ rest) :
      StepEffect s ((s.takeWords n).emit (intdigest s.hasher))

/-- A command taken off the channel by a live block has one of the effects of a step. -/
theorem stepEffect_of_exec {s t : State} {i : Instr} {n : Nat} {rest : List Word} (hf : s.faulted = false)
    (ha : s.arrived = encode i ++ rest) (h : exec i (s.takeWords n) = .next t) : StepEffect s t := by
  rcases exec_cases h with ⟨hf', -⟩ | ⟨-, ⟨seed, rfl, rfl⟩ | ⟨_, _, _, _, _, -, -, rfl⟩ | ⟨-, -, rfl⟩ | ⟨hi, rfl, rfl⟩ |
    ⟨-, _, _, _, _, _, -, -, -, rfl⟩ | ⟨hi, count, d0, d1, d2, d3, rfl, hc, ht, rfl⟩ | ⟨hi, rfl, rfl⟩⟩
  · exact absurd (hf.symm.trans hf') Bool.false_ne_true
  · exact .init n seed rest hf ha
  · exact .fault n _ hf
  · exact .fault n _ hf
  · exact .reset n rest ⟨hf, hi⟩ ha
  · exact .fault n _ hf
  · exact .update n count d0 d1 d2 d3 rest ⟨hf, hi⟩ hc ht ha
  · exact .digest n rest ⟨hf, hi⟩ ha

/-- The inversion lemma of `step`: every step has one of the effects listed. -/
theorem stepEffect_of_step {s t : State} (h : step s = .next t) : StepEffect s t := by
  rcases step_cases s with ⟨hw, hs⟩ |
    ⟨cw, operands, he, -, ⟨hf, hs⟩ | ⟨hf, i, rest, hd, hs⟩ | ⟨hf, r, c, -, -, hs⟩⟩ <;> rw [hs] at h
  · cases h; exact .hold hw
  · cases h; exact .discard _ hf
  · exact stepEffect_of_exec hf (he.trans (eq_encode_append_of_decode hd).2) h
  · cases h; exact .fault _ c hf

end Sys2Proof.Machine
end

section
/-! The block's invariant (10_state.md R25, R28, R32, R34, R40): it holds at power-on, every step keeps it, and what it says of
the carry buffer. -/

namespace Sys2Proof.Machine

/-! ### Its four parts -/

theorem statusOk_zero : StatusOk 0 := by unfold StatusOk; decide

theorem heldOk_nil : HeldOk [] := fun _ _ h => nomatch h

/-- What a waiting block holds is never a whole packet. -/
theorem heldOk_of_waiting {s : State} (h : s.Waiting) : HeldOk s.arrived := fun cw operands he => by
  rw [he]; exact h cw operands he

/-- `reset_state` starts the empty stream. -/
theorem Hasher.resetState_ofStream (h : Hasher) : h.resetState.OfStream :=
  ⟨[], by simp, by rw [Hasher.resetState_seed]; exact resetState_eq_streamHasher h⟩

/-- The byte counter of a stream's registers is its length. -/
theorem streamHasher_totalLen_toNat {seed : Word} {s : List Byte} (hs : s.length < 2 ^ 64) :
    (streamHasher seed s).totalLen.toNat = s.length := by
  rw [streamHasher_totalLen, BitVec.toNat_ofNat, Nat.mod_eq_of_lt hs]

/-- update_alg extends the stream, as long as the counter can hold its length. -/
theorem Hasher.OfStream.updateAlg {h : Hasher} (hs : h.OfStream) {d : List Byte}
    (hd : h.totalLen.toNat + d.length < 2 ^ 64) : (h.updateAlg d).OfStream := by
  obtain ⟨stream, hlen, he⟩ := hs
  rw [he, streamHasher_totalLen_toNat hlen] at hd
  refine ⟨stream ++ d, by rwa [List.length_append], ?_⟩
  rw [Hasher.updateAlg_seed]
  conv_lhs => rw [he]
  exact updateExtendsStream _ _ _

/-! ### It holds from power-on -/

theorem State.powerOn_inv (seed : Word) (lanes : Lanes) (totalLen : TotalLen) (carryLen : BitVec 4) (waiting : List Word) :
    (State.powerOn seed lanes totalLen carryLen waiting).Inv where
  status := statusOk_zero
  held := heldOk_nil
  stream := by simp
  silent := by simp

/-- Settles O2: STATUS is 0x00, no word is held, no register holds a value and nothing is emitted. -/
theorem powerOnMeetsInvariant : Obligations.PowerOnMeetsInvariant :=
  ⟨State.powerOn_inv .., State.powerOn_inv⟩

/-- A step's effect keeps the invariant: what is held is nothing or part of a packet, STATUS is written by INIT and by fault
entry only, and the registers of a stream go to those of the empty or the longer stream. -/
theorem StepEffect.inv {s t : State} (h : StepEffect s t) (hi : s.Inv) : t.Inv := by
  cases h with
  | hold hw => exact { hi with held := heldOk_of_waiting hw }
  | discard n hf => exact { hi with held := heldOk_nil }
  | fault n c hf =>
    exact
      { status := statusOk_setFault c hi.status
        held := heldOk_nil
        stream := fun ht => hi.stream (by simpa using ht)
        silent := fun ht => hi.silent (by simpa using ht) }
  | init n seed rest hf ha =>
    exact
      { status := statusOk_setInited hi.status
        held := heldOk_nil
        stream := fun _ => Hasher.resetState_ofStream _
        silent := by simp }
  | reset n rest hs ha =>
    exact { hi with held := heldOk_nil, stream := fun _ => Hasher.resetState_ofStream _ }
  | update n count d0 d1 d2 d3 rest hs hc ht ha =>
    exact
      { hi with
        held := heldOk_nil
        stream := fun _ => (hi.stream hs.2).updateAlg (by rwa [dataBytes_length]) }
  | digest n rest hs ha =>
    exact { hi with held := heldOk_nil, silent := by simp [hs.2] }

/-- Settles O40: each effect a step can have keeps the invariant. -/
theorem stepKeepsInvariant : Obligations.StepKeepsInvariant := fun _ _ hi h => (stepEffect_of_step h).inv hi

/-! ### What it says of the carry buffer -/

/-- Exactly the pending bytes of a stream are stored (R23). -/
theorem streamHasher_bufOk (seed : Word) (s : List Byte) : (streamHasher seed s).BufOk := by
  intro j
  rw [Fin.getElem_fin, streamHasher_buf_getElem _ _ _ j.isLt, isSome_getElem?, streamHasher_carryLen_toNat]
  omega

/-- Before 16 bytes no block has been mixed. -/
theorem streamHasher_lanes_short (seed : Word) {s : List Byte} (hs : s.length < 16) :
    (streamHasher seed s).lanes = laneInit seed := by
  rw [streamHasher_lanes, Nat.div_eq_of_lt hs, mixBlocks_zero]

/-- Settles O41: the registers are those of some stream, whose closed form gives all three. -/
theorem invariantBoundsTheBuffer : Obligations.InvariantBoundsTheBuffer := by
  intro s hi hinit
  obtain ⟨stream, hlen, he⟩ := hi.stream hinit
  rw [he, streamHasher_totalLen_toNat hlen, streamHasher_carryLen_toNat]
  exact ⟨rfl, streamHasher_bufOk _ _, streamHasher_lanes_short _⟩

end Sys2Proof.Machine
end

section
/-! What a step leaves unchanged (10_state.md R26 to R29, R33; 70_reset_and_hazards.md R230, R234). -/

namespace Sys2Proof.Machine

namespace StepEffect
variable {s t : State}

/-- A faulted block only takes words in, or discards them (60_exceptions.md R204). -/
theorem status_of_faulted (h : StepEffect s t) (hf : s.faulted = true) : t.status = s.status := by
  cases h with
  | hold | discard => rfl
  | fault _ _ hlive | init _ _ _ hlive => simp [hlive] at hf
  | reset _ _ hs | update _ _ _ _ _ _ _ hs | digest _ _ hs => simp [hs.1] at hf

/-- No effect of a step clears INITED (10_state.md R27). -/
theorem inited (h : StepEffect s t) (hi : s.inited = true) : t.inited = true := by
  cases h with
  | init => exact State.markInited_inited _
  | fault n c => exact (State.raiseFault_inited _ c).trans hi
  | hold | discard | reset | update | digest => exact hi

/-- No effect of a step clears FAULT (10_state.md R26). -/
theorem faulted (h : StepEffect s t) (hf : s.faulted = true) : t.faulted = true := by
  rw [State.faulted, h.status_of_faulted hf]; exact hf

/-- Only INIT sets INITED (10_state.md R27). -/
theorem init_of_inited (h : StepEffect s t) (hs : s.inited = false) (ht : t.inited = true) :
    ∃ seed rest, s.arrived = encode (.init seed) ++ rest := by
  cases h with
  | init _ seed rest _ ha => exact ⟨seed, rest, ha⟩
  | fault | hold | discard | reset | update | digest => simp [hs] at ht

/-- Only fault entry writes CAUSE (10_state.md R28). -/
theorem fault_of_cause (h : StepEffect s t) (hc : causeField t.status ≠ causeField s.status) :
    s.faulted = false ∧ t.faulted = true := by
  cases h with
  | fault n c hf => exact ⟨hf, State.raiseFault_faulted _ c⟩
  | init => simp at hc
  | hold | discard | reset | update | digest => exact absurd rfl hc

/-- Only the DIGEST of a ready block emits (10_state.md R29). -/
theorem results (h : StepEffect s t) :
    t.results = s.results ∨
    (s.Ready ∧ (∃ rest, s.arrived = encode .digest ++ rest) ∧ t.results = s.results ++ [intdigest s.hasher]) := by
  cases h with
  | digest _ rest hs ha => exact .inr ⟨hs, ⟨rest, ha⟩, rfl⟩
  | hold | discard | fault | init | reset | update => exact .inl rfl

end StepEffect

/-- No bytes beyond the pending ones complete a block: update_alg leaves the lanes. -/
theorem Hasher.updateAlg_lanes_short (h : Hasher) {d : List Byte} (hd : h.carryLen.toNat + d.length < 16) :
    (h.updateAlg d).lanes = h.lanes := by
  rw [Hasher.updateAlg_lanes, Nat.div_eq_of_lt hd, mixBlocks_zero]

/-- An input of at most 16 bytes that completes a block completes exactly one: 15 bytes are pending at most. -/
theorem Hasher.updateAlg_lanes_one_block (h : Hasher) {d : List Byte} (hd : d.length ≤ 16)
    (hb : 16 ≤ h.carryLen.toNat + d.length) :
    (h.updateAlg d).lanes = blockMix h.lanes (Block.ofList (h.validBytes ++ d)) := by
  have hlt := h.carryLen_lt
  rw [Hasher.updateAlg_lanes, show (h.carryLen.toNat + d.length) / 16 = 0 + 1 by omega, mixBlocks_succ_first,
    mixBlocks_zero, Hasher.pendingThen]

/-- Settles O37: fault entry and INIT alone write STATUS, each in a live block. -/
theorem statusBitsAreSticky : Obligations.StatusBitsAreSticky := fun _ _ h =>
  have he := stepEffect_of_step h
  ⟨he.status_of_faulted, he.inited, he.init_of_inited, he.fault_of_cause⟩

/-- Settles O1: what `State.powerOn` holds is read off, and no effect of a step clears FAULT or INITED. -/
theorem powerOnState : Obligations.PowerOnState := by
  refine ⟨fun seed lanes totalLen carryLen waiting => ?_, ⟨_, _, _, _, rfl⟩, fun s t h => ?_⟩
  · exact ⟨rfl, rfl, rfl, if_neg (by simp), fun j => by simp⟩
  · exact ⟨(stepEffect_of_step h).faulted, (stepEffect_of_step h).inited⟩

/-- Settles O38: DIGEST is the only effect that writes the result channel. -/
theorem onlyDigestEmits : Obligations.OnlyDigestEmits := fun _ _ h => (stepEffect_of_step h).results

/-- Settles O39: INIT and RESET leave the lanes of `reset_state`, and an UPDATE packet completes one block at most. -/
theorem lanesChangeOnlyByMixingOrReset : Obligations.LanesChangeOnlyByMixingOrReset := by
  intro s t h hne
  cases stepEffect_of_step h with
  | hold | discard | fault | digest => exact absurd rfl hne
  | init _ seed rest _ ha => exact .inl ⟨⟨seed, rest, ha⟩, by simp⟩
  | reset _ rest _ ha => exact .inr (.inl ⟨⟨rest, ha⟩, rfl⟩)
  | update _ count d0 d1 d2 d3 rest _ hc _ ha =>
    have hlen := dataBytes_length count d0 d1 d2 d3
    rcases Nat.lt_or_ge (s.hasher.carryLen.toNat + count.toNat) 16 with hshort | hblock
    · exact absurd (s.hasher.updateAlg_lanes_short (by rwa [hlen])) hne
    · exact .inr (.inr ⟨count, d0, d1, d2, d3, rest, ha, hblock,
        s.hasher.updateAlg_lanes_one_block (by rwa [hlen]) (by rwa [hlen])⟩)

end Sys2Proof.Machine
end

section
/-! The frame of each command: which registers it writes (10_state.md R39). -/

namespace Sys2Proof.Machine

/-- The state a command leaves when it runs to its end (R102, R103, R123, R176). -/
def State.completed (s : State) : Instr → State
  | .init seed => (s.withHasher (s.hasher.withSeed seed).resetState).markInited
  | .reset => s.withHasher s.hasher.resetState
  | .update n d0 d1 d2 d3 => s.withHasher (s.hasher.updateAlg (dataBytes n d0 d1 d2 d3))
  | .digest => s.emit (intdigest s.hasher)

/-- A command is discarded, or faults (INIT never does), or runs to its end. -/
theorem exec_discards_faults_or_completes {i : Instr} {s t : State} (h : exec i s = .next t) :
    (s.faulted = true ∧ t = s) ∨
    (s.faulted = false ∧ (∀ seed, i ≠ .init seed) ∧ ∃ c, t = s.raiseFault c) ∨
    (s.faulted = false ∧ t = s.completed i) := by
  rcases exec_cases h with ⟨hf, ht⟩ | ⟨hf, ⟨_, rfl, ht⟩ | ⟨_, _, _, _, _, rfl, -, ht⟩ | ⟨hi, -, ht⟩ | ⟨-, rfl, ht⟩ |
    ⟨-, _, _, _, _, _, rfl, -, -, ht⟩ | ⟨-, _, _, _, _, _, rfl, -, -, ht⟩ | ⟨-, rfl, ht⟩⟩
  · exact .inl ⟨hf, ht⟩
  · exact .inr (.inr ⟨hf, ht⟩)
  · exact .inr (.inl ⟨hf, nofun, _, ht⟩)
  · exact .inr (.inl ⟨hf, hi, _, ht⟩)
  · exact .inr (.inr ⟨hf, ht⟩)
  · exact .inr (.inl ⟨hf, nofun, _, ht⟩)
  · exact .inr (.inr ⟨hf, ht⟩)
  · exact .inr (.inr ⟨hf, ht⟩)

/-! ### What every completed command leaves unchanged -/

section completed
variable (s : State) (i : Instr)

@[simp] theorem State.completed_held : (s.completed i).held = s.held := by cases i <;> rfl
@[simp] theorem State.completed_channel : (s.completed i).channel = s.channel := by cases i <;> rfl

@[simp] theorem State.completed_faulted : (s.completed i).faulted = s.faulted := by
  cases i with
  | init => exact State.markInited_faulted _
  | reset | update | digest => rfl

@[simp] theorem State.completed_reservedField :
    reservedField (s.completed i).status = reservedField s.status := by
  cases i with
  | init => exact reservedField_setInited _
  | reset | update | digest => rfl

theorem State.completed_inited (hi : s.inited = true) : (s.completed i).inited = true := by
  cases i with
  | init => exact State.markInited_inited _
  | reset | update | digest => exact hi

end completed

/-- Settles O35: a discarded command changes nothing, a faulting one STATUS only, and a completed one what R39 lists. -/
theorem commandsWriteOnlyTheirRegisters : Obligations.CommandsWriteOnlyTheirRegisters := by
  intro i s t h
  rcases exec_discards_faults_or_completes h with ⟨hf, rfl⟩ | ⟨hf, hi, c, rfl⟩ | ⟨hf, rfl⟩
  · refine ⟨rfl, rfl, rfl, id, fun _ => ⟨rfl, rfl, rfl⟩, ?_⟩
    cases i <;> simp [hf]
  · refine ⟨rfl, rfl, reservedField_setFault c _, (s.raiseFault_inited c).trans,
      fun _ => ⟨rfl, rfl, s.raiseFault_inited c⟩, ?_⟩
    cases i with
    | init seed => exact absurd rfl (hi seed)
    | reset | update | digest => simp
  · refine ⟨s.completed_held i, s.completed_channel i, s.completed_reservedField i, s.completed_inited i,
      fun ht => by simp [hf] at ht, ?_⟩
    cases i with
    | init seed => exact ⟨rfl, State.markInited_faulted _, causeField_setInited _⟩
    | reset => exact ⟨rfl, s.hasher.resetState_seed, fun _ => rfl⟩
    | update n d0 d1 d2 d3 =>
      exact ⟨rfl, s.hasher.updateAlg_seed _, fun _ => rfl,
        fun hn => s.hasher.updateAlg_lanes_short (by rwa [dataBytes_length])⟩
    | digest => exact ⟨rfl, fun _ => ⟨rfl, _, rfl⟩⟩

end Sys2Proof.Machine
end

section
/-! The host reads the result channel word by word (10_state.md R29; 70_reset_and_hazards.md R234). -/

namespace Sys2Proof.Machine
namespace Link
variable {l : Link}

/-- An unread word: the read gives it and moves the read position. -/
theorem readResult_of_unread (h : l.wordsRead < l.block.results.length) :
    l.readResult = (some l.block.results[l.wordsRead], { l with wordsRead := l.wordsRead + 1 }) := by
  simp only [readResult, List.getElem?_eq_getElem h]

/-- No unread word: the read gives none and changes nothing. -/
theorem readResult_of_allRead (h : l.block.results.length ≤ l.wordsRead) : l.readResult = (none, l) := by
  simp only [readResult, List.getElem?_eq_none h]

/-- One read more, before the others. -/
theorem readResults_succ (k : Nat) (h : l.wordsRead < l.block.results.length) :
    l.readResults (k + 1) =
      (l.block.results[l.wordsRead] :: (readResults k { l with wordsRead := l.wordsRead + 1 }).1,
        (readResults k { l with wordsRead := l.wordsRead + 1 }).2) := by
  simp only [readResults, readResult_of_unread h]

/-- `k` reads of as many unread words give them in order and leave the block. -/
theorem readResults_eq (k : Nat) (h : l.wordsRead + k ≤ l.block.results.length) :
    l.readResults k = ((l.block.results.drop l.wordsRead).take k, { l with wordsRead := l.wordsRead + k }) := by
  induction k generalizing l with
  | zero => rfl
  | succ k ih =>
    have hunread : l.wordsRead < l.block.results.length := by omega
    have hlater := ih (l := { l with wordsRead := l.wordsRead + 1 })
      (show l.wordsRead + 1 + k ≤ l.block.results.length by omega)
    rw [readResults_succ k hunread, hlater, List.drop_eq_getElem_cons hunread, List.take_succ_cons,
      Nat.add_assoc, Nat.add_comm 1 k]

end Link

/-- Settles O49, by induction on the number of reads. -/
theorem hostReadsResultsInOrder : Obligations.HostReadsResultsInOrder := by
  refine ⟨fun l k hk => ?_, fun l => Link.readResult_of_allRead⟩
  rw [Link.readResults_eq k hk]
  exact ⟨rfl, rfl, rfl⟩

end Sys2Proof.Machine
end

section
/-! What the digest reads of the byte counter (10_state.md R37; 43_finalize_tail_avalanche.md R170, R171). -/

namespace Sys2Proof.Machine

/-- Length add takes the low 32 bits of the count. -/
theorem lengthAdd_congr {t t' : TotalLen} (acc : Word) (h : t.toNat % 2 ^ 32 = t'.toNat % 2 ^ 32) :
    lengthAdd acc t = lengthAdd acc t' := by
  have hlow : t.extractLsb' 0 32 = t'.extractLsb' 0 32 := BitVec.eq_of_toNat_eq (by simpa using h)
  rw [lengthAdd, lengthAdd, hlow]

/-- The choice of the converge form is the test `≥ 16`. -/
theorem longStream_congr {t t' : TotalLen} (h : 16 ≤ t.toNat ↔ 16 ≤ t'.toNat) : longStream t = longStream t' :=
  decide_eq_decide.mpr h

/-- Settles O33: converge reads the test, length add the low 32 bits, and no other stage reads the count. -/
theorem digestIgnoresHighCount : Obligations.DigestIgnoresHighCount := by
  intro h t hlow hlong
  have hvalid : Hasher.validBytes { h with totalLen := t } = h.validBytes := rfl
  have hconverge : converge { h with totalLen := t } = converge h := by
    simp only [converge, longStream_congr hlong]
  simp only [intdigest, hvalid, hconverge, lengthAdd_congr _ hlow]

end Sys2Proof.Machine
end

section
/-! update_alg on two inputs in turn is update_alg on both joined, from any registers (41_carry_buffer_mux.md R121, R125). -/

namespace Sys2Proof.Machine

section bufWrite
variable (base : Nat) (a b : List Byte) (buf : CarryBuffer)

theorem bufWrite_nil : bufWrite base [] 0 buf = buf := by
  apply Vector.ext
  intro j hj
  rw [bufWrite_getElem _ _ _ _ _ hj, if_neg (by omega)]

/-- Writing one input behind another is writing both at once. -/
theorem bufWrite_append :
    bufWrite (base + a.length) b b.length (bufWrite base a a.length buf) =
      bufWrite base (a ++ b) (a ++ b).length buf := by
  apply Vector.ext
  intro j hj
  simp only [bufWrite_getElem, List.length_append]
  rcases Nat.lt_or_ge j (base + a.length) with hfirst | hsecond
  · rw [if_neg (by omega)]
    by_cases hbase : base ≤ j
    · rw [if_pos ⟨hbase, hfirst⟩, if_pos (by omega), List.getElem?_append_left (by omega)]
    · rw [if_neg (by omega), if_neg (by omega)]
  · by_cases hend : j < base + a.length + b.length
    · rw [if_pos ⟨hsecond, hend⟩, if_pos (by omega), List.getElem?_append_right (by omega), Nat.sub_sub]
    · rw [if_neg (by omega), if_neg (by omega), if_neg (by omega)]

/-- Writing an input behind the bytes the buffer holds, with no value above them. -/
theorem bufWrite_behind :
    bufWrite a.length b b.length (Vector.ofFn fun j : Fin 16 => a[j.val]?) =
      Vector.ofFn fun j : Fin 16 => (a ++ b)[j.val]? := by
  apply Vector.ext
  intro j hj
  simp only [bufWrite_getElem, Vector.getElem_ofFn]
  rcases Nat.lt_or_ge j a.length with hfirst | hsecond
  · rw [if_neg (by omega), List.getElem?_append_left hfirst]
  · rw [List.getElem?_append_right hsecond, List.getElem?_eq_none hsecond]
    split
    · rfl
    · rw [List.getElem?_eq_none (by omega)]

end bufWrite

namespace Hasher
variable (h : Hasher) (a b : List Byte)

/-- No input changes no register (R126). -/
theorem updateAlg_nil : h.updateAlg [] = h := by
  have hlt := h.carryLen_lt
  have hbuf : (h.updateAlg []).buf = h.buf := by
    rw [h.updateAlg_buf_short [] (by simpa using hlt)]; exact bufWrite_nil _ _
  have hcarry : (h.updateAlg []).carryLen = h.carryLen := by
    apply BitVec.eq_of_toNat_eq
    rw [updateAlg_carryLen_toNat, List.length_nil, Nat.add_zero, Nat.mod_eq_of_lt hlt]
  have hlanes : (h.updateAlg []).lanes = h.lanes := by
    rw [updateAlg_lanes, List.length_nil, Nat.add_zero, Nat.div_eq_of_lt hlt, mixBlocks_zero]
  exact eq_of_registers (h.updateAlg_seed []) (by simp) hbuf hcarry hlanes

theorem pendingThen_append : h.pendingThen (a ++ b) = h.pendingThen a ++ b := by
  simp only [pendingThen, List.append_assoc]

/-- After one input, the pending bytes and the next input are what follows the whole blocks of the first. -/
theorem updateAlg_pendingThen :
    (h.updateAlg a).pendingThen b = (h.pendingThen (a ++ b)).drop (16 * ((h.carryLen.toNat + a.length) / 16)) := by
  rw [pendingThen_append, List.drop_append_of_le_length (by rw [pendingThen_length]; exact Nat.mul_div_le _ _),
    ← updateAlg_validBytes, pendingThen]

/-- The whole blocks of both inputs: those of the first, then those of what it leaves pending and the second. -/
theorem length_append_blocks :
    (h.carryLen.toNat + (a ++ b).length) / 16 =
      (h.carryLen.toNat + a.length) / 16 + ((h.updateAlg a).carryLen.toNat + b.length) / 16 := by
  rw [List.length_append, updateAlg_carryLen_toNat]; omega

theorem updateAlg_append_totalLen :
    ((h.updateAlg a).updateAlg b).totalLen = (h.updateAlg (a ++ b)).totalLen := by
  rw [updateAlg_totalLen, updateAlg_totalLen, updateAlg_totalLen, List.length_append, BitVec.ofNat_add, BitVec.add_assoc]

theorem updateAlg_append_carryLen :
    ((h.updateAlg a).updateAlg b).carryLen = (h.updateAlg (a ++ b)).carryLen := by
  apply BitVec.eq_of_toNat_eq
  simp only [updateAlg_carryLen_toNat, List.length_append]; omega

theorem updateAlg_append_lanes :
    ((h.updateAlg a).updateAlg b).lanes = (h.updateAlg (a ++ b)).lanes := by
  rw [updateAlg_lanes, updateAlg_lanes, updateAlg_lanes, updateAlg_pendingThen, length_append_blocks, mixBlocks_add,
    pendingThen_append, mixBlocks_append _ _ _ _ (by rw [pendingThen_length]; exact Nat.mul_div_le _ _)]

theorem updateAlg_append_validBytes :
    ((h.updateAlg a).updateAlg b).validBytes = (h.updateAlg (a ++ b)).validBytes := by
  rw [updateAlg_validBytes, updateAlg_pendingThen, List.drop_drop, ← Nat.mul_add, ← length_append_blocks,
    ← updateAlg_validBytes]

/-- An input that completes a block leaves the valid bytes in the buffer and no value above them. -/
theorem updateAlg_buf_eq_validBytes (hs : 16 ≤ h.carryLen.toNat + a.length) :
    (h.updateAlg a).buf = Vector.ofFn fun j : Fin 16 => (h.updateAlg a).validBytes[j.val]? := by
  simp only [h.updateAlg_buf_blocks a hs, updateAlg_validBytes, List.getElem?_drop]

/-- A second input that completes no block is written behind what the first leaves pending, whether the first completed one
or not. -/
theorem updateAlg_append_buf_short (hb : (h.updateAlg a).carryLen.toNat + b.length < 16) :
    ((h.updateAlg a).updateAlg b).buf = (h.updateAlg (a ++ b)).buf := by
  have hcarry := h.updateAlg_carryLen_toNat a
  have hlen : (a ++ b).length = a.length + b.length := List.length_append
  rw [updateAlg_buf_short _ _ hb]
  rcases Nat.lt_or_ge (h.carryLen.toNat + a.length) 16 with ha | ha
  · rw [h.updateAlg_buf_short a ha, h.updateAlg_buf_short _ (by omega), hcarry, Nat.mod_eq_of_lt ha, bufWrite_append]
  · have hvalid : (h.updateAlg (a ++ b)).validBytes = (h.updateAlg a).validBytes ++ b := by
      rw [← updateAlg_append_validBytes, updateAlg_validBytes, Nat.div_eq_of_lt hb, Nat.mul_zero, List.drop_zero,
        pendingThen]
    rw [h.updateAlg_buf_eq_validBytes a ha, h.updateAlg_buf_eq_validBytes _ (by omega), hvalid, ← validBytes_length,
      bufWrite_behind]

/-- Whichever input completes the last block, the buffer holds what follows it; if none does, both inputs are written behind
the pending bytes. -/
theorem updateAlg_append_buf :
    ((h.updateAlg a).updateAlg b).buf = (h.updateAlg (a ++ b)).buf := by
  rcases Nat.lt_or_ge ((h.updateAlg a).carryLen.toNat + b.length) 16 with hb | hb
  · exact h.updateAlg_append_buf_short a b hb
  · have hblocks := h.length_append_blocks a b
    rw [updateAlg_buf_eq_validBytes _ _ hb, updateAlg_buf_eq_validBytes _ _ (by omega), updateAlg_append_validBytes]

/-- update_alg on two inputs in turn is update_alg on both joined (R125). -/
theorem updateAlg_updateAlg : (h.updateAlg a).updateAlg b = h.updateAlg (a ++ b) :=
  eq_of_registers (by simp only [updateAlg_seed]) (h.updateAlg_append_totalLen a b) (h.updateAlg_append_buf a b)
    (h.updateAlg_append_carryLen a b) (h.updateAlg_append_lanes a b)

end Hasher

end Sys2Proof.Machine
end

section
/-! The packet of a well-formed command decodes to the command, and a step runs it (30_encoding.md R73 to R77, R83). -/

namespace Sys2Proof

/-- The decoder reads back a well-formed command from its packet. -/
theorem decode_encode_append {i : Instr} (rest : List Word) (hi : i.WellFormed) :
    decode (encode i ++ rest) = .command i rest := by
  cases i with
  | update n d0 d1 d2 d3 =>
    have hn : n.toNat ≤ 16 := of_decide_eq_true hi
    simp [encode, decode, hn]
  | init | reset | digest => simp [encode, decode]

/-- Every command's packet is as long as its OP says (R72). -/
theorem encode_framing (i : Instr) : Laws.Framing.Statement i := by
  cases i with
  | init seed => exact Laws.Framing.init seed
  | reset => exact Laws.Framing.reset
  | update n d0 d1 d2 d3 => exact Laws.Framing.update n d0 d1 d2 d3
  | digest => exact Laws.Framing.digest

namespace Machine

/-- A whole packet of a well-formed command is taken off the channel and executed; a faulted block discards it, and so does
`exec` (60_exceptions.md R204). -/
theorem step_of_arrived_packet {s : State} {i : Instr} {rest : List Word} (hi : i.WellFormed)
    (ha : s.arrived = encode i ++ rest) : step s = exec i { s with held := [], channel := rest } := by
  obtain ⟨cw, operands, he, hl⟩ := encode_framing i
  have hcons : s.arrived = cw :: (operands ++ rest) := by rw [ha, he, List.cons_append]
  have htake : s.takeWords (packetLen cw) = { s with held := [], channel := rest } := by
    rw [State.takeWords, ha, he, hl, ← List.length_cons, List.drop_left]
  rw [← htake, step]
  cases hf : s.faulted
  · have hd : decode (cw :: (operands ++ rest)) = .command i rest := by
      rw [← hcons, ha]; exact decode_encode_append rest hi
    rw [State.fetch_run hcons hf hd]
  · rw [State.fetch_discard hcons (by rw [hl, List.length_append]; omega) hf]
    exact (exec_of_faulted (s := s.takeWords (packetLen cw)) i hf).symm

end Machine
end Sys2Proof
end

section
/-! The beat of up to 16 bytes carries exactly those bytes (30_encoding.md R76, R85). -/

namespace Sys2Proof.Machine

/-- Byte `r` of a little-endian word (00_scope.md R12). -/
theorem extractLsb'_le32 (b0 b1 b2 b3 : Byte) {r : Nat} (hr : r < 4) :
    (le32 b0 b1 b2 b3).extractLsb' (8 * r) 8 = [b0, b1, b2, b3][r] := by
  rw [le32_eq_append]
  apply BitVec.eq_of_getLsbD_eq
  intro j hj
  simp only [BitVec.getLsbD_extractLsb', BitVec.getLsbD_append, hj, decide_true, Bool.true_and]
  -- For each of the four bytes, bit `8r + j` lies in byte `r` alone.
  interval_cases r <;> grind

/-- Data word `q` of the packet packed from a byte list. -/
theorem dataWord_packWord (bytes : List Byte) {q : Nat} (hq : q < 4) :
    dataWord (packWord bytes 0) (packWord bytes 1) (packWord bytes 2) (packWord bytes 3) q = packWord bytes q := by
  interval_cases q <;> rfl

/-- Byte `r` of the data word packed from positions `4q` to `4q + 3` of a byte list; 0x00 past its end. -/
theorem extractLsb'_packWord (bytes : List Byte) (q : Nat) {r : Nat} (hr : r < 4) :
    (packWord bytes q).extractLsb' (8 * r) 8 = bytes.getD (4 * q + r) 0 := by
  rw [packWord, extractLsb'_le32 _ _ _ _ hr]
  interval_cases r <;> rfl

theorem dataByte_packWord (bytes : List Byte) {k : Nat} (hk : k < 16) :
    dataByte (packWord bytes 0) (packWord bytes 1) (packWord bytes 2) (packWord bytes 3) k = bytes.getD k 0 := by
  rw [dataByte, dataWord_packWord bytes (by omega), extractLsb'_packWord bytes _ (by omega), Nat.div_add_mod]

section beat
variable {bytes : List Byte} (hb : bytes.length ≤ 16)
include hb

theorem beat_count_toNat : (BitVec.ofNat 5 bytes.length).toNat = bytes.length := by
  rw [BitVec.toNat_ofNat]; omega

theorem beat_wellFormed : (beat bytes).WellFormed :=
  decide_eq_true (by rwa [beat_count_toNat hb])

/-- The first N bytes of the beat's packet are the bytes it was assembled from. -/
theorem dataBytes_beat :
    dataBytes (BitVec.ofNat 5 bytes.length) (packWord bytes 0) (packWord bytes 1) (packWord bytes 2) (packWord bytes 3) =
      bytes := by
  apply List.ext_getElem (by rw [dataBytes_length, beat_count_toNat hb])
  intro k _ hk
  simp only [dataBytes, List.getElem_map, List.getElem_range]
  rw [dataByte_packWord bytes (by omega), List.getD_eq_getElem _ _ hk]

/-- A beat in a ready block whose count can take its bytes is update_alg of them (41_carry_buffer_mux.md R123). -/
theorem exec_beat_of_ready {s : State} (hs : s.Ready) (ht : s.hasher.totalLen.toNat + bytes.length < 2 ^ 64) :
    exec (beat bytes) s = .next (s.withHasher (s.hasher.updateAlg bytes)) := by
  have hn := beat_count_toNat hb
  have hexec := execUpdate_of_ready (packWord bytes 0) (packWord bytes 1) (packWord bytes 2) (packWord bytes 3) hs
    (hn.symm ▸ hb) (hn.symm ▸ ht)
  rw [dataBytes_beat hb] at hexec
  exact hexec

end beat

end Sys2Proof.Machine
end

section
/-! A run of beats absorbs their bytes (20_memory.md R61, R63; 30_encoding.md R86; 41_carry_buffer_mux.md R125). -/

namespace Sys2Proof.Machine

/-- One beat: the step leaves the registers of update_alg and the words after the packet, and changes nothing else. -/
theorem step_of_beat {s : State} {d : List Byte} {rest : List Word} (hs : s.Ready) (hd : d.length ≤ 16)
    (ht : s.hasher.totalLen.toNat + d.length < 2 ^ 64) (ha : s.arrived = encode (beat d) ++ rest) :
    step s = .next { s with hasher := s.hasher.updateAlg d, held := [], channel := rest } :=
  (step_of_arrived_packet (beat_wellFormed hd) ha).trans
    (exec_beat_of_ready (s := { s with held := [], channel := rest }) hd hs ht)

/-- The byte counter after an input it can take. -/
theorem Hasher.updateAlg_totalLen_toNat (h : Hasher) {d : List Byte} (hd : h.totalLen.toNat + d.length < 2 ^ 64) :
    (h.updateAlg d).totalLen.toNat = h.totalLen.toNat + d.length := by
  rw [Hasher.updateAlg_totalLen, BitVec.toNat_add, BitVec.toNat_ofNat, Nat.add_mod_mod, Nat.mod_eq_of_lt hd]

/-- Settles O26, by induction on the beats: each step is update_alg of one beat's bytes (`step_of_beat`), and update_alg on
inputs in turn is update_alg on all of them joined (`Hasher.updateAlg_updateAlg`). -/
theorem beatsAbsorbTheirBytes : Obligations.BeatsAbsorbTheirBytes := by
  intro s chunks rest hs hlen hcount ha
  induction chunks generalizing s with
  | nil => exact ⟨s, stepMany_zero s, s.hasher.updateAlg_nil.symm, rfl, ha⟩
  | cons d later ih =>
    obtain ⟨hd, hlater⟩ := List.forall_mem_cons.mp hlen
    rw [List.flatten_cons, List.length_append] at hcount
    have hdcount : s.hasher.totalLen.toNat + d.length < 2 ^ 64 := by omega
    have hstep := step_of_beat (rest := encodeAll (later.map beat) ++ rest) hs hd hdcount
      (by rw [ha, ← List.append_assoc]; rfl)
    obtain ⟨t, hrun, hregs, hout, hrest⟩ := ih
      { s with hasher := s.hasher.updateAlg d, held := [], channel := encodeAll (later.map beat) ++ rest }
      hs hlater (by rw [s.hasher.updateAlg_totalLen_toNat hdcount]; omega) rfl
    refine ⟨t, (stepMany_succ hstep later.length).trans hrun, ?_, hout, hrest⟩
    rw [hregs, Hasher.updateAlg_updateAlg, List.flatten_cons]

end Sys2Proof.Machine
end

section
/-! Every whole packet finishes in one step (20_memory.md R61; 70_reset_and_hazards.md R236). -/

namespace Sys2Proof.Machine

/-- No command stops the machine (log entry 13). -/
theorem exec_next (i : Instr) (s : State) : ∃ t, exec i s = .next t := by
  cases i <;> exact ⟨_, rfl⟩

/-- No command touches the command words: only the decoder takes them. -/
theorem exec_words {i : Instr} {s t : State} (h : exec i s = .next t) : t.held = s.held ∧ t.channel = s.channel := by
  obtain ⟨hheld, hchannel, -⟩ := commandsWriteOnlyTheirRegisters i s t h
  exact ⟨hheld, hchannel⟩

/-- Discarded, faulting or executed, a whole packet's words are consumed in one step, and no other words. -/
theorem step_of_whole_packet {s : State} {cw : Word} {operands : List Word} (ha : s.arrived = cw :: operands)
    (hl : packetLen cw ≤ operands.length + 1) :
    ∃ t, step s = .next t ∧ t.held = [] ∧ t.channel = s.arrived.drop (packetLen cw) := by
  rcases step_cases s with ⟨hw, -⟩ | ⟨cw', operands', ha', -, hcases⟩
  · exact absurd (hw cw operands ha) (Nat.not_lt.mpr hl)
  · obtain ⟨rfl, rfl⟩ := List.cons.inj (ha.symm.trans ha')
    rcases hcases with ⟨-, hs⟩ | ⟨-, i, rest, -, hs⟩ | ⟨-, r, c, -, -, hs⟩
    · exact ⟨_, hs, rfl, rfl⟩
    · obtain ⟨t, ht⟩ := exec_next i (s.takeWords (packetLen cw))
      exact ⟨t, hs.trans ht, exec_words ht⟩
    · exact ⟨_, hs, rfl, rfl⟩

/-- A block waits, or a whole packet has arrived. -/
theorem State.waiting_or_whole_packet (s : State) :
    s.Waiting ∨ ∃ cw operands, s.arrived = cw :: operands ∧ packetLen cw ≤ operands.length + 1 := by
  rcases s.fetch_cases with ⟨hw, -⟩ | ⟨cw, operands, ha, hl, -⟩
  · exact .inl hw
  · exact .inr ⟨cw, operands, ha, hl⟩

/-- A waiting block holds its words, and waits. -/
theorem State.Waiting.step {s : State} (hw : s.Waiting) : Machine.step s = .next s.holdWords ∧ s.holdWords.Waiting := by
  refine ⟨by rw [Machine.step, State.fetch_hold hw], ?_⟩
  unfold State.Waiting
  rwa [State.holdWords_arrived]

/-- As many steps as words: each takes a word at least, or the block waits already. -/
theorem stepMany_waiting {n : Nat} {s : State} (h : s.Waiting ∨ s.arrived.length ≤ n) :
    ∃ t, stepMany n s = .next t ∧ t.Waiting := by
  induction n generalizing s with
  | zero =>
    refine ⟨s, stepMany_zero s, ?_⟩
    rcases h with hw | hn
    · exact hw
    · intro cw operands ha; simp [ha] at hn
  | succ n ih =>
    rcases s.waiting_or_whole_packet with hw | ⟨cw, operands, ha, hl⟩
    · rw [stepMany_succ hw.step.1]
      exact ih (.inl hw.step.2)
    · obtain ⟨t, hstep, hheld, hchannel⟩ := step_of_whole_packet ha hl
      rw [stepMany_succ hstep]
      rcases h with hw | hn
      · exact absurd (hw cw operands ha) (Nat.not_lt.mpr hl)
      · have hpos := packetLen_pos cw
        refine ih (.inr ?_)
        rw [State.arrived, hheld, hchannel, List.nil_append, List.length_drop]
        omega

/-- Settles O15: a whole packet's words are gone after one step, so `n` words last for `n` steps at most. -/
theorem everyPacketFinishes : Obligations.EveryPacketFinishes :=
  ⟨fun _ _ _ => step_of_whole_packet, fun _ => stepMany_waiting (.inr (Nat.le_refl _))⟩

end Sys2Proof.Machine
end

section
/-! The two views of a result word (20_memory.md R55, R56; 43_finalize_tail_avalanche.md R177, R178). -/

namespace Sys2Proof.Machine

/-- The bits of a number from `i` up, cut to `n` bits: one digit of it in base `2^n`. -/
theorem extractLsb'_eq_ofNat_div (r : Word) (i n : Nat) : r.extractLsb' i n = BitVec.ofNat n (r.toNat / 2 ^ i) := by
  rw [← Nat.shiftRight_eq_div_pow]; rfl

/-- A hexadecimal digit's code (R178). -/
theorem hexchar_eq_ofNat (x : BitVec 4) :
    hexchar x = BitVec.ofNat 8 (if x.toNat ≤ 9 then 0x30 + x.toNat else 0x61 + (x.toNat - 10)) := by
  revert x; decide

theorem hexchar_injective : Function.Injective hexchar := by
  unfold Function.Injective; decide

/-- The two digits of a byte, the high one first. -/
def hexPair (b : Byte) : List Byte := [hexchar (b.extractLsb' 4 4), hexchar (b.extractLsb' 0 4)]

/-- A digit of a byte of a word is a digit of the word. -/
theorem extractLsb'_of_byte (r : Word) (i j : Nat) (hj : j + 4 ≤ 8) :
    (r.extractLsb' i 8).extractLsb' j 4 = r.extractLsb' (i + j) 4 := by
  apply BitVec.eq_of_getLsbD_eq
  intro k hk
  simp only [BitVec.getLsbD_extractLsb', Nat.add_assoc]
  simp [show j + k < 8 by omega]

theorem hexdigest_eq_flatMap (r : Word) : hexdigest r = (digestBytes r).flatMap hexPair := by
  simp [hexdigest, digestBytes, hexPair, extractLsb'_of_byte]

theorem hexPair_injective : Function.Injective hexPair := by
  intro b c h
  obtain ⟨hhigh, hlow⟩ : hexchar (b.extractLsb' 4 4) = hexchar (c.extractLsb' 4 4) ∧
      hexchar (b.extractLsb' 0 4) = hexchar (c.extractLsb' 0 4) := by simpa [hexPair] using h
  rw [← BitVec.extractLsb'_append_extractLsb' (w := 4) (len := 4) (x := b), hexchar_injective hhigh,
    hexchar_injective hlow]
  exact BitVec.extractLsb'_append_extractLsb'

theorem digestBytes_injective : Function.Injective digestBytes := by
  intro r r' h
  simp only [digestBytes, List.cons.injEq, and_true] at h
  obtain ⟨h3, h2, h1, h0⟩ := h
  rw [← append_extractBytes r, h3, h2, h1, h0, append_extractBytes]

/-- The digits of a byte sequence, two for each byte, determine it. -/
theorem flatMap_hexPair_injective : Function.Injective (List.flatMap hexPair) := by
  intro l
  induction l with
  | nil =>
    rintro (- | ⟨c, l'⟩) h
    · rfl
    · cases h
  | cons b l ih =>
    rintro (- | ⟨c, l'⟩) h
    · cases h
    · rw [List.flatMap_cons, List.flatMap_cons] at h
      obtain ⟨hhead, htail⟩ := List.append_inj h rfl
      rw [hexPair_injective hhead, ih htail]

theorem hexdigest_injective : Function.Injective hexdigest := by
  intro r r' h
  rw [hexdigest_eq_flatMap, hexdigest_eq_flatMap] at h
  exact digestBytes_injective (flatMap_hexPair_injective h)

theorem digestBytes_eq_map (r : Word) :
    digestBytes r = (List.range 4).map fun k => BitVec.ofNat 8 (r.toNat / 2 ^ (24 - 8 * k)) := by
  simp only [digestBytes, extractLsb'_eq_ofNat_div]; rfl

theorem hexdigest_eq_map (r : Word) :
    hexdigest r = (List.range 8).map fun k =>
      let x := r.toNat / 2 ^ (28 - 4 * k) % 16
      BitVec.ofNat 8 (if x ≤ 9 then 0x30 + x else 0x61 + (x - 10)) := by
  simp only [hexdigest, hexchar_eq_ofNat, extractLsb'_eq_ofNat_div, BitVec.toNat_ofNat]; rfl

/-- Settles O34: digit by digit each view is the word's own digits, and no step of either view loses one. -/
theorem hexdigestIsHexOfDigestBytes : Obligations.HexdigestIsHexOfDigestBytes := fun r =>
  ⟨digestBytes_eq_map r, hexdigest_eq_flatMap r, hexdigest_eq_map r,
    fun _ => ⟨fun h => digestBytes_injective h, fun h => hexdigest_injective h⟩⟩

end Sys2Proof.Machine
end

section
/-! Hosts share a block's command channel packet by packet (20_memory.md R64). -/

namespace Sys2Proof.Machine

/-- One whole packet leaves none unfinished. -/
theorem openPacket_of_whole {n : Nat} {cw : Word} {operands : List Word} (hl : packetLen cw = operands.length + 1) :
    openPacket (n + 1) (cw :: operands) = [] := by
  rw [openPacket, if_neg (by omega), hl, List.drop_eq_nil_of_le (by simp)]
  cases n <;> rfl

/-- A whole packet after words that end at a packet boundary ends at one: packet by packet, the words before it are passed
over. -/
theorem openPacket_append_whole {m n : Nat} {ws : List Word} {cw : Word} {operands : List Word}
    (hl : packetLen cw = operands.length + 1) (h : openPacket m ws = []) (hn : ws.length ≤ n) :
    openPacket (n + 1) (ws ++ cw :: operands) = [] := by
  induction m, ws using openPacket.induct generalizing n with
  | case1 => exact openPacket_of_whole hl
  | case2 ws hne =>
    rcases ws with - | ⟨cw', operands'⟩
    · exact absurd rfl hne
    · cases h
  | case3 m cw' operands' hshort => rw [openPacket, if_pos hshort] at h; cases h
  | case4 m cw' operands' hwhole ih =>
    rw [openPacket, if_neg hwhole] at h
    obtain ⟨k, rfl⟩ : ∃ k, n = k + 1 := ⟨n - 1, by rw [List.length_cons] at hn; omega⟩
    rw [List.cons_append, openPacket, if_neg (by rw [List.length_append]; omega), ← List.cons_append,
      List.drop_append_of_le_length (by rw [List.length_cons]; omega)]
    have hpos := packetLen_pos cw'
    exact ih h (by rw [List.length_drop]; omega)

/-- At a packet boundary a whole packet leaves the block at a packet boundary (30_encoding.md R70, R72). -/
theorem State.deliver_midPacket {s : State} {cw : Word} {operands : List Word} (hl : packetLen cw = operands.length + 1)
    (hm : s.midPacket = false) : (s.deliver (cw :: operands)).midPacket = false := by
  have hboundary : openPacket s.arrived.length s.arrived = [] := by simpa [State.midPacket] using hm
  simp only [State.midPacket, State.deliver_arrived, List.length_append, List.length_cons, ← Nat.add_assoc]
  simpa using openPacket_append_whole hl hboundary (Nat.le_add_right _ operands.length)

namespace Link
variable {l : Link} {host : Nat}

/-- No other host has an unfinished packet: the words reach the block. -/
theorem send_of_allowed (ws : List Word) (h : l.block.midPacket = true → l.lastSender = some host) :
    ∃ m, l.send host ws = .next m ∧ m.block = l.block.deliver ws := by
  unfold send
  split
  · next hnil => exact ⟨l, rfl, by rw [hnil, State.deliver, List.append_nil]⟩
  · rw [if_neg (by simpa using h)]
    exact ⟨_, rfl, rfl⟩

/-- At a packet boundary any host may send a whole packet. -/
theorem send_whole_packet {cw : Word} {operands : List Word} (hl : packetLen cw = operands.length + 1)
    (hm : l.block.midPacket = false) :
    ∃ m, l.send host (cw :: operands) = .next m ∧ m.block = l.block.deliver (cw :: operands) ∧
      m.block.midPacket = false := by
  obtain ⟨m, hsend, hblock⟩ := send_of_allowed (l := l) (host := host) (cw :: operands) (by simp [hm])
  exact ⟨m, hsend, hblock, hblock ▸ State.deliver_midPacket hl hm⟩

/-- Inside another host's packet words are refused. -/
theorem send_refused {ws : List Word} (hne : ws ≠ []) (hm : l.block.midPacket = true) (hs : l.lastSender ≠ some host) :
    l.send host ws = .refused .wordInterleaving := by
  simp [send, hne, hm, hs]

end Link

/-- Settles O48: a command's packet is a whole packet (`encode_framing`), which leaves the block at a packet boundary; inside a
packet the last sender alone is let through. -/
theorem hostsInterleaveWholePackets : Obligations.HostsInterleaveWholePackets := by
  refine fun l host => ⟨fun i hm => ?_, fun cw operands hl => Link.send_whole_packet hl,
    fun ws _ hsender => Link.send_of_allowed ws fun _ => hsender, fun ws => Link.send_refused⟩
  obtain ⟨cw, operands, he, hl⟩ := encode_framing i
  rw [he]
  exact Link.send_whole_packet hl hm

end Sys2Proof.Machine
end

section
/-! DIGEST changes no register (20_memory.md R63; 43_finalize_tail_avalanche.md R176). -/

namespace Sys2Proof.Machine

/-- Settles O32: the first DIGEST leaves the registers the second one reads, and a ready block. -/
theorem digestRepeats : Obligations.DigestRepeats := fun s hs =>
  ⟨s.emit (intdigest s.hasher), intdigest s.hasher, execDigest_of_ready hs, rfl,
    execDigest_of_ready (s := s.emit (intdigest s.hasher)) hs⟩

end Sys2Proof.Machine
end

section
/-! The decoder and the encoder are inverse to each other, and the opcode map (30_encoding.md R72 to R84). -/

namespace Sys2Proof

/-- Settles O4: `decode_encode_append`, command by command. -/
theorem decodeInvertsEncode : Obligations.DecodeInvertsEncode := fun _ rest hi => decode_encode_append rest hi

/-- Settles O5: `eq_encode_append_of_decode`, by the decoder's checks for each OP. -/
theorem encodeInvertsDecode : Obligations.EncodeInvertsDecode := fun _ _ _ h => eq_encode_append_of_decode h

/-- Settles O6: eight fixed packets, each run through the decoder. -/
theorem packetsDecodeAsWritten : Obligations.PacketsDecodeAsWritten := by
  unfold Obligations.PacketsDecodeAsWritten; decide

@[simp] theorem opField_append (op : BitVec 4) (arg : BitVec 28) : opField (op ++ arg) = op :=
  BitVec.extractLsb'_append_eq_left

/-- The packet's length by OP (R72). -/
theorem packetLen_eq (cw : Word) :
    packetLen cw = if (opField cw).toNat = 1 then 2 else if (opField cw).toNat = 3 then 5 else 1 := by
  unfold packetLen opcodeOf
  generalize opField cw = op
  revert op; decide

/-- The header of whatever decodes to a command is the header the encoder writes. -/
theorem opField_of_decode {cw : Word} {operands rest : List Word} {i : Instr}
    (h : decode (cw :: operands) = .command i rest) : some (opField cw) = (encode i).head?.map opField := by
  obtain ⟨-, hws⟩ := eq_encode_append_of_decode h
  obtain ⟨header, later, he, -⟩ := encode_framing i
  rw [he, List.cons_append] at hws
  rw [he, (List.cons.inj hws).1]; rfl

/-- Settles O7: the length is read off OP, and a command's header has the OP of its row. -/
theorem opcodeMap : Obligations.OpcodeMap := by
  refine fun op arg => ⟨by rw [packetLen_eq, opField_append], fun operands rest i h => ?_⟩
  have hop := opField_of_decode h
  rw [opField_append] at hop
  cases i with
  | init seed => exact congrArg BitVec.toNat (Option.some.inj hop)
  | reset => exact congrArg BitVec.toNat (Option.some.inj hop)
  | update n d0 d1 d2 d3 => exact congrArg BitVec.toNat ((Option.some.inj hop).trans (opField_update n))
  | digest => exact congrArg BitVec.toNat (Option.some.inj hop)

end Sys2Proof
end

section
/-! The step on a whole and on an incomplete packet (30_encoding.md R83, R84). -/

namespace Sys2Proof.Machine

/-- Settles O10: `step_of_arrived_packet`, for a live and for a faulted block. -/
theorem stepRunsDecodedCommand : Obligations.StepRunsDecodedCommand := fun _ _ _ hi ha => step_of_arrived_packet hi ha

/-- Settles O11: a waiting block holds its words, a whole packet finishes, and no command stops the machine. -/
theorem everyStepAnswersNext : Obligations.EveryStepAnswersNext := by
  refine ⟨fun s => ?_, exec_next⟩
  rcases s.waiting_or_whole_packet with hw | ⟨cw, operands, ha, hl⟩
  · exact ⟨_, hw.step.1⟩
  · obtain ⟨t, hstep, -⟩ := step_of_whole_packet ha hl
    exact ⟨t, hstep⟩

/-- Words already held are held again. -/
theorem State.holdWords_holdWords (s : State) : s.holdWords.holdWords = s.holdWords := by
  rw [State.holdWords, State.holdWords_arrived]; rfl

/-- A waiting block holds its words for any number of steps (R84). -/
theorem State.Waiting.stepMany {s : State} (hw : s.Waiting) (k : Nat) : Machine.stepMany (k + 1) s = .next s.holdWords := by
  induction k generalizing s with
  | zero => rw [stepMany_succ hw.step.1, stepMany_zero]
  | succ k ih => rw [stepMany_succ hw.step.1, ih hw.step.2, State.holdWords_holdWords]

/-- A block that has a proper part of a command's packet waits. -/
theorem waiting_of_part {i : Instr} {part rest : List Word} {s : State} (he : encode i = part ++ rest) (hne : rest ≠ [])
    (ha : s.arrived = part) : s.Waiting := by
  intro cw operands hcons
  obtain ⟨header, later, hpacket, hl⟩ := encode_framing i
  rw [← ha, hcons, hpacket, List.cons_append] at he
  obtain ⟨rfl, rfl⟩ := List.cons.inj he
  have hpos := List.length_pos_iff.mpr hne
  rw [hl, List.length_append]; omega

/-- Settles O12: a waiting block keeps its words (`State.Waiting.stepMany`), and the missing words complete the packet. -/
theorem incompletePacketIsHeld : Obligations.IncompletePacketIsHeld := by
  refine ⟨fun s hw k => ⟨_, hw.stepMany k, rfl⟩, fun i part rest s hi he hne ha => ?_⟩
  refine ⟨_, (waiting_of_part he hne ha).step.1, rfl, rfl, ?_⟩
  have hwhole : (s.holdWords.deliver rest).arrived = encode i ++ [] := by
    rw [State.deliver_arrived, State.holdWords_arrived, ha, ← he, List.append_nil]
  exact step_of_arrived_packet hi hwhole

end Sys2Proof.Machine
end

section
/-! The bytes of an UPDATE packet, and what an UPDATE that executes leaves in each register (30_encoding.md R76, R81;
41_carry_buffer_mux.md R121, R123). -/

namespace Sys2Proof.Machine

/-- Settles O9: each byte of the packed words is the list's, or 0x00 past its end (`dataByte_packWord`). -/
theorem beatCarriesItsBytes : Obligations.BeatCarriesItsBytes := fun bytes hb =>
  ⟨_, _, _, _, _, rfl, beat_wellFormed hb, beat_count_toNat hb, dataBytes_beat hb, fun k hk h16 => by
    rw [dataByte_packWord bytes h16, List.getD_eq_default _ _ hk]⟩

/-- Byte `k` of an UPDATE packet, read off its four data words joined, D0 lowest (R76; `dataByte_eq_extract`). -/
def packetByte (d0 d1 d2 d3 : Word) (k : Nat) : Byte := (d3 ++ d2 ++ d1 ++ d0).extractLsb' (8 * k) 8

section dataBytes
variable {n : BitVec 5} (hn : n.toNat ≤ 16) (d0 d1 d2 d3 : Word)
include hn

/-- The data bytes of a legal UPDATE are the low N bytes of its four data words joined (R76). -/
theorem dataBytes_eq_map_packetByte :
    dataBytes n d0 d1 d2 d3 = (List.range n.toNat).map (packetByte d0 d1 d2 d3) :=
  List.map_congr_left fun k hk => dataByte_eq_extract d0 d1 d2 d3 (by rw [List.mem_range] at hk; omega)

theorem dataBytes_getElem? (k : Nat) :
    (dataBytes n d0 d1 d2 d3)[k]? = if k < n.toNat then some (packetByte d0 d1 d2 d3 k) else none := by
  rw [dataBytes_eq_map_packetByte hn, List.getElem?_map]
  split <;> simp [*]

/-- Byte `j` of the block an UPDATE completes: a pending byte, or one of the packet's. -/
theorem ofList_pending_dataBytes_getElem (h : Hasher) (hb : 16 ≤ h.carryLen.toNat + n.toNat) (j : Nat) (hj : j < 16) :
    (Block.ofList (h.validBytes ++ dataBytes n d0 d1 d2 d3))[j] =
      if j < h.carryLen.toNat then h.bufByte j else packetByte d0 d1 d2 d3 (j - h.carryLen.toNat) := by
  rw [Block.ofList_getElem _ j hj, ← Hasher.pendingThen, Hasher.pendingThen_getElem?, dataBytes_getElem? hn]
  split
  · rfl
  · rw [if_pos (by omega), Option.getD_some]

end dataBytes

/-- An UPDATE of an illegal count never looks at its data (R80). -/
theorem execUpdate_of_badCount {n : BitVec 5} (d0 d1 d2 d3 : Word) (s : State) (hn : 16 < n.toNat) :
    execUpdate n d0 d1 d2 d3 s = .next (s.unlessFaulted (s.raiseFault .badCount)) := by
  rw [execUpdate, if_pos hn]

/-- Settles O23: a legal UPDATE reads its data bytes only, one of an illegal count reads no data. -/
theorem unusedDataBytesAreIgnored : Obligations.UnusedDataBytesAreIgnored := by
  intro s n d0 d1 d2 d3 e0 e1 e2 e3 hagree
  change execUpdate n d0 d1 d2 d3 s = execUpdate n e0 e1 e2 e3 s
  rcases Nat.lt_or_ge 16 n.toNat with hbad | hn
  · rw [execUpdate_of_badCount _ _ _ _ _ hbad, execUpdate_of_badCount _ _ _ _ _ hbad]
  · have hbytes : dataBytes n d0 d1 d2 d3 = dataBytes n e0 e1 e2 e3 := by
      rw [dataBytes_eq_map_packetByte hn, dataBytes_eq_map_packetByte hn]
      exact List.map_congr_left fun k hk => hagree k (List.mem_range.mp hk)
    rw [execUpdate, execUpdate, hbytes]

/-- block_mix of a block whose bytes are known: each lane from its own four (42_block_mixer.md R151, R152). -/
theorem blockMix_of_bytes (v : Lanes) {b : Block} {f : Nat → Byte} (hb : ∀ j (hj : j < 16), b[j] = f j) :
    blockMix v b =
      { v1 := round32 v.v1 (le32 (f 0) (f 1) (f 2) (f 3)), v2 := round32 v.v2 (le32 (f 4) (f 5) (f 6) (f 7)),
        v3 := round32 v.v3 (le32 (f 8) (f 9) (f 10) (f 11)), v4 := round32 v.v4 (le32 (f 12) (f 13) (f 14) (f 15)) } := by
  simp only [blockMix, Block.w1, Block.w2, Block.w3, Block.w4, hb]

/-- The buffer after an UPDATE that completes no block: its bytes behind the pending ones. -/
theorem Hasher.updateAlg_dataBytes_buf_short (h : Hasher) {n : BitVec 5} (hn : n.toNat ≤ 16) (d0 d1 d2 d3 : Word)
    (hs : h.carryLen.toNat + n.toNat < 16) (j : Fin 16) :
    (h.updateAlg (dataBytes n d0 d1 d2 d3)).buf[j] =
      if h.carryLen.toNat ≤ j.val ∧ j.val < h.carryLen.toNat + n.toNat then
        some (packetByte d0 d1 d2 d3 (j.val - h.carryLen.toNat))
      else h.buf[j] := by
  have hlen := dataBytes_length n d0 d1 d2 d3
  simp only [h.updateAlg_buf_short (dataBytes n d0 d1 d2 d3) (hlen.symm ▸ hs), Fin.getElem_fin, bufWrite_getElem, hlen,
    dataBytes_getElem? hn]
  split
  · rw [if_pos (by omega)]
  · rfl

/-- The buffer after an UPDATE that completes a block: its last bytes, and no value above them. -/
theorem Hasher.updateAlg_dataBytes_buf_block (h : Hasher) {n : BitVec 5} (hn : n.toNat ≤ 16) (d0 d1 d2 d3 : Word)
    (hb : 16 ≤ h.carryLen.toNat + n.toNat) (j : Fin 16) :
    (h.updateAlg (dataBytes n d0 d1 d2 d3)).buf[j] =
      if j.val < h.carryLen.toNat + n.toNat - 16 then
        some (packetByte d0 d1 d2 d3 (16 - h.carryLen.toNat + j.val))
      else none := by
  have hlt := h.carryLen_lt
  have hlen := dataBytes_length n d0 d1 d2 d3
  have hone : (h.carryLen.toNat + n.toNat) / 16 = 1 := by omega
  have hpos : 16 + j.val - h.carryLen.toNat = 16 - h.carryLen.toNat + j.val := by omega
  simp only [h.updateAlg_buf_blocks (dataBytes n d0 d1 d2 d3) (hlen.symm ▸ hb), Fin.getElem_fin, Vector.getElem_ofFn, hlen,
    hone, Nat.mul_one, Hasher.pendingThen_getElem?, dataBytes_getElem? hn, hpos]
  rw [if_neg (by omega)]
  congr 1
  rw [eq_iff_iff]; omega

/-- Settles O21: the registers update_alg leaves, read off one by one for an input of N bytes. -/
theorem updateResult : Obligations.UpdateResult := by
  intro s n d0 d1 d2 d3 hs hn ht
  have hlen := dataBytes_length n d0 d1 d2 d3
  refine ⟨_, execUpdate_of_ready d0 d1 d2 d3 hs hn (by omega), rfl, rfl, rfl, rfl, s.hasher.updateAlg_seed _, ?_, ?_,
    fun hshort => ⟨s.hasher.updateAlg_lanes_short (by rwa [hlen]),
      s.hasher.updateAlg_dataBytes_buf_short hn d0 d1 d2 d3 hshort⟩, fun hblock => ?_⟩
  · exact (s.hasher.updateAlg_totalLen_toNat (by rw [hlen]; omega)).trans (by rw [hlen])
  · exact (s.hasher.updateAlg_carryLen_toNat _).trans (by rw [hlen])
  · have hlanes := (s.hasher.updateAlg_lanes_one_block (by rwa [hlen]) (by rwa [hlen])).trans
      (blockMix_of_bytes _ (ofList_pending_dataBytes_getElem hn d0 d1 d2 d3 s.hasher hblock))
    exact ⟨congrArg Lanes.v1 hlanes, congrArg Lanes.v2 hlanes, congrArg Lanes.v3 hlanes, congrArg Lanes.v4 hlanes,
      s.hasher.updateAlg_dataBytes_buf_block hn d0 d1 d2 d3 hblock⟩

end Sys2Proof.Machine
end

section
/-! How each command faults in a live block (60_exceptions.md R201 to R205). -/

namespace Sys2Proof.Machine

section live
variable {s : State} (hf : s.faulted = false)
include hf

theorem execReset_of_not_inited (hi : s.inited = false) : execReset s = .next (s.raiseFault .notInitialised) := by
  rw [execReset, State.unlessFaulted_of_live _ hf, State.ifInited_of_not _ hi]

theorem execDigest_of_not_inited (hi : s.inited = false) : execDigest s = .next (s.raiseFault .notInitialised) := by
  rw [execDigest, State.unlessFaulted_of_live _ hf, State.ifInited_of_not _ hi]

variable {n : BitVec 5} (d0 d1 d2 d3 : Word)

theorem execUpdate_of_not_inited (hn : n.toNat ≤ 16) (hi : s.inited = false) :
    execUpdate n d0 d1 d2 d3 s = .next (s.raiseFault .notInitialised) := by
  rw [execUpdate, State.unlessFaulted_of_live _ hf, if_neg (by omega), State.ifInited_of_not _ hi]

theorem execUpdate_of_overflow (hn : n.toNat ≤ 16) (hi : s.inited = true)
    (ht : 2 ^ 64 ≤ s.hasher.totalLen.toNat + n.toNat) :
    execUpdate n d0 d1 d2 d3 s = .next (s.raiseFault .lengthOverflow) := by
  rw [execUpdate, State.unlessFaulted_of_live _ hf, if_neg (by omega), State.ifInited_of_inited _ hi,
    if_pos ((lengthOverflows_iff _ _).mpr ht)]

end live

/-- Settles O36: fault entry writes the code and FAULT into STATUS (R203), for the cause each command raises. -/
theorem faultingCommandsChangeOnlyStatus : Obligations.FaultingCommandsChangeOnlyStatus := fun s n d0 d1 d2 d3 hf =>
  ⟨fun hi => ⟨execReset_of_not_inited hf hi, execDigest_of_not_inited hf hi⟩,
    fun hn => (execUpdate_of_badCount d0 d1 d2 d3 s hn).trans
      (congrArg Host.Outcome.next (State.unlessFaulted_of_live _ hf)),
    fun hn hi => execUpdate_of_not_inited hf d0 d1 d2 d3 hn hi,
    fun hn hi ht => execUpdate_of_overflow hf d0 d1 d2 d3 hn hi (by omega)⟩

end Sys2Proof.Machine
end

section
/-! The beats of a byte stream (30_encoding.md R86). -/

namespace Sys2Proof.Machine

/-- Slice `k` of what follows the first slice is slice `k + 1`. -/
theorem drop_mul_drop (d : List Byte) (k : Nat) : (d.drop 16).drop (16 * k) = d.drop (16 * (k + 1)) := by
  rw [List.drop_drop, Nat.mul_succ, Nat.add_comm]

/-- The beats are those of the whole 16-byte slices, then one of the bytes left over if there are any. -/
theorem beats_eq_slices {fuel : Nat} {d : List Byte} (hfuel : d.length ≤ fuel) :
    beats fuel d =
      (List.range (d.length / 16)).map (fun k => beat ((d.drop (16 * k)).take 16)) ++
        (if d.length % 16 = 0 then [] else [beat (d.drop (16 * (d.length / 16)))]) := by
  induction fuel, d using beats.induct with
  | case1 d => simp [beats, Nat.le_zero.mp hfuel]
  | case2 fuel d hwhole ih =>
    obtain ⟨k, hk⟩ : ∃ k, d.length / 16 = k + 1 := ⟨d.length / 16 - 1, by omega⟩
    have hk' : (d.drop 16).length / 16 = k := by rw [List.length_drop]; omega
    have hmod : (d.drop 16).length % 16 = d.length % 16 := by rw [List.length_drop]; omega
    rw [beats, if_pos hwhole, ih (by rw [List.length_drop]; omega), hk, hk', hmod, List.range_succ_eq_map,
      List.map_cons, List.map_map, List.cons_append, drop_mul_drop]
    simp only [drop_mul_drop]
    rfl
  | case3 fuel d hshort hempty => simp [beats, hempty]
  | case4 fuel d hshort hsome =>
    rw [beats, if_neg hshort, if_neg hsome, Nat.div_eq_of_lt (by omega), Nat.mod_eq_of_lt (by omega), if_neg hsome]
    rfl

/-- Settles O27, by induction on the slices (`beats_eq_slices`). -/
theorem updateStreamExpansion : Obligations.UpdateStreamExpansion := fun _ => beats_eq_slices (Nat.le_refl _)

/-- The beats carry the stream cut into chunks of at most 16 bytes. -/
theorem beats_eq_map_beat {fuel : Nat} {d : List Byte} (hfuel : d.length ≤ fuel) :
    ∃ chunks : List (List Byte), beats fuel d = chunks.map beat ∧ chunks.flatten = d ∧ ∀ c ∈ chunks, c.length ≤ 16 := by
  induction fuel, d using beats.induct with
  | case1 d => exact ⟨[], rfl, (List.eq_nil_of_length_eq_zero (Nat.le_zero.mp hfuel)).symm, nofun⟩
  | case2 fuel d hwhole ih =>
    obtain ⟨chunks, hbeats, hflat, hlen⟩ := ih (by rw [List.length_drop]; omega)
    refine ⟨d.take 16 :: chunks, ?_, ?_, List.forall_mem_cons.mpr ⟨List.length_take_le _ _, hlen⟩⟩
    · rw [beats, if_pos hwhole, hbeats, List.map_cons]
    · rw [List.flatten_cons, hflat, List.take_append_drop]
  | case3 fuel d hshort hempty =>
    exact ⟨[], by simp [beats, hempty], (List.eq_nil_of_length_eq_zero hempty).symm, nofun⟩
  | case4 fuel d hshort hsome =>
    exact ⟨[d], by rw [beats, if_neg hshort, if_neg hsome]; rfl, List.flatten_singleton, by simp; omega⟩

theorem encodeAll_append (is js : List Instr) : encodeAll (is ++ js) = encodeAll is ++ encodeAll js := by
  induction is with
  | nil => rfl
  | cons i is ih => rw [List.cons_append, encodeAll, encodeAll, ih, List.append_assoc]

end Sys2Proof.Machine
end

section
/-! HASH: INIT, the beats of the data, DIGEST (30_encoding.md R88; 40_lifecycle.md R104;
43_finalize_tail_avalanche.md R179). -/

namespace Sys2Proof.Machine

/-- A run goes on where an earlier one ended. -/
theorem stepMany_add {s t : State} {k : Nat} (h : stepMany k s = .next t) (m : Nat) :
    stepMany (k + m) s = stepMany m t := by
  induction k generalizing s with
  | zero => rw [stepMany_zero] at h; cases h; rw [Nat.zero_add]
  | succ k ih =>
    obtain ⟨u, hu⟩ := everyStepAnswersNext.1 s
    rw [stepMany_succ hu] at h
    rw [Nat.succ_add, stepMany_succ hu, ih h]

/-- INIT on the channel of a live block starts the empty stream under its seed. -/
theorem step_of_init {s : State} {seed : Word} {rest : List Word} (hf : s.faulted = false)
    (ha : s.arrived = encode (.init seed) ++ rest) :
    ∃ t, step s = .next t ∧ t.Ready ∧ t.hasher = streamHasher seed [] ∧ t.results = s.results ∧ t.arrived = rest :=
  ⟨_, (step_of_arrived_packet rfl ha).trans (execInit_of_live seed hf), ⟨(State.markInited_faulted _).trans hf,
    State.markInited_inited _⟩, resetState_eq_streamHasher _, rfl, rfl⟩

/-- DIGEST on the channel of a ready block emits the digest of its registers. -/
theorem step_of_digest {s : State} {rest : List Word} (hs : s.Ready) (ha : s.arrived = encode .digest ++ rest) :
    ∃ t, step s = .next t ∧ t.results = s.results ++ [intdigest s.hasher] ∧ t.hasher = s.hasher ∧ t.faulted = false ∧
      t.arrived = rest :=
  ⟨_, (step_of_arrived_packet rfl ha).trans (execDigest_of_ready (s := { s with held := [], channel := rest }) hs), rfl,
    rfl, hs.1, rfl⟩

/-- UPDATE_STREAM sent to a ready block whose count can take its bytes is update_alg of them all. -/
theorem stepMany_of_updateStream {s : State} {data : List Byte} {rest : List Word} (hs : s.Ready)
    (ht : s.hasher.totalLen.toNat + data.length < 2 ^ 64) (ha : s.arrived = encodeAll (updateStream data) ++ rest) :
    ∃ t, stepMany (updateStream data).length s = .next t ∧ t.hasher = s.hasher.updateAlg data ∧
      t.outputs = s.outputs ∧ t.arrived = rest := by
  obtain ⟨chunks, hbeats, rfl, hlen⟩ := beats_eq_map_beat (Nat.le_refl data.length)
  rw [updateStream, hbeats] at ha ⊢
  rw [List.length_map]
  exact beatsAbsorbTheirBytes s chunks rest hs hlen (by omega) ha

/-- Settles O45: INIT starts the empty stream, the beats extend it by the data (`updateExtendsStream`), and DIGEST emits its
digest. -/
theorem hashProgramEmitsOneShotHash : Obligations.HashProgramEmitsOneShotHash := by
  intro s data seed rest hf hdata ha
  have hwords : s.arrived =
      encode (.init seed) ++ (encodeAll (updateStream data) ++ (encode .digest ++ rest)) := by
    rw [ha, hashProgram, encodeAll_append, newHasher, encodeAll]; simp [encodeAll]
  obtain ⟨t, hinit, hready, hempty, hresults, hstream⟩ := step_of_init hf hwords
  obtain ⟨u, hrun, hregs, hout, hlast⟩ := stepMany_of_updateStream hready
    (by rw [hempty, streamHasher_totalLen_toNat (by simp)]; simpa using hdata) hstream
  obtain ⟨hstatus, hsame⟩ : u.status = t.status ∧ u.results = t.results := Prod.mk.inj hout
  have hu : u.Ready := by rwa [State.Ready, State.faulted, State.inited, hstatus]
  have hhash : u.hasher = streamHasher seed data := by rw [hregs, hempty]; exact updateExtendsStream seed [] data
  have hsteps : (hashProgram data seed).length = (updateStream data).length + 1 + 1 := by
    simp [hashProgram, newHasher]
  obtain ⟨v, hdigest, hemitted, hkept, hlive, hrest⟩ := step_of_digest hu hlast
  refine ⟨v, ?_, ?_, hkept.trans hhash, hlive, hrest⟩
  · rw [hsteps, stepMany_succ hinit, stepMany_add hrun, stepMany_succ hdigest, stepMany_zero]
  · rw [hemitted, hsame, hresults, hhash, xxh32]

end Sys2Proof.Machine
end

section
/-! The packets the assembler writes (30_encoding.md R85 to R88). -/

namespace Sys2Proof.Machine

theorem map_asmWord {α : Type} (k : Nat) (f : Word → α) :
    (asmWord k).map f = if k < 2 ^ 32 then some (f (BitVec.ofNat 32 k)) else none := by
  unfold asmWord; split <;> rfl

/-- `.word` values are all u32, or the line is refused. -/
theorem mapM_asmWord (values : List Nat) :
    values.mapM asmWord = if ∀ v ∈ values, v < 2 ^ 32 then some (values.map (BitVec.ofNat 32)) else none := by
  induction values with
  | nil => simp
  | cons v later ih =>
    rw [List.mapM_cons, ih, asmWord]
    simp only [List.forall_mem_cons]
    by_cases hv : v < 2 ^ 32
    · simp only [hv, true_and, if_true]
      split <;> rfl
    · simp only [hv, false_and]
      rfl

/-- The header of an UPDATE with its byte count (R75). -/
theorem updateHeader_eq_add {n : Nat} (hn : n ≤ 16) :
    0x30000000#32 ||| (BitVec.ofNat 5 n).setWidth 32 = 0x30000000#32 + BitVec.ofNat 32 n := by
  revert n; decide

/-- Settles O46: kind by kind, the encoder's words for the command or the commands of the line. -/
theorem assemblerPackets : Obligations.AssemblerPackets := by
  refine ⟨fun k => map_asmWord k _, rfl, rfl, fun bytes hb => ?_, fun bytes hb => if_neg (Nat.not_le.mpr hb),
    mapM_asmWord, fun bytes => rfl, fun k bytes => map_asmWord k _, fun k bytes => ?_⟩
  · rw [assembleLine, if_pos hb, beat, encode, updateHeader_eq_add hb]; rfl
  · rw [assembleLine, map_asmWord]
    simp only [hashProgram, newHasher, encodeAll_append]; rfl

end Sys2Proof.Machine
end

section
/-! The lifecycle commands (40_lifecycle.md R100 to R107). -/

namespace Sys2Proof.Machine

/-- `lane_init` with its constants written out (R100). -/
theorem laneInit_eq (seed : Word) :
    laneInit seed = { v1 := seed + 0x9E3779B1#32 + 0x85EBCA77#32, v2 := seed + 0x85EBCA77#32, v3 := seed,
                      v4 := seed - 0x9E3779B1#32 } := by
  simp [laneInit, prime1, prime2]

/-- `reset_state` keeps nothing of the registers but the seed (R101). -/
theorem Hasher.resetState_eq (h : Hasher) :
    h.resetState =
      { seed := h.seed
        lanes := { v1 := h.seed + 0x9E3779B1#32 + 0x85EBCA77#32, v2 := h.seed + 0x85EBCA77#32, v3 := h.seed,
                   v4 := h.seed - 0x9E3779B1#32 }
        totalLen := 0#64
        buf := Vector.replicate 16 none
        carryLen := 0#4 } := by
  rw [Hasher.resetState, laneInit_eq]; rfl

/-- `reset_state` does not change what it wrote: it reads the seed alone, which it keeps. -/
theorem Hasher.resetState_resetState (h : Hasher) : h.resetState.resetState = h.resetState := rfl

/-- INITED is STATUS[1]; `setInited` keeps every other bit (R102). -/
theorem getLsbD_setInited (st : Byte) {k : Nat} (hk : k < 8) :
    (setInited st).getLsbD k = if k = 1 then true else st.getLsbD k := by
  revert st k; decide

/-- The one legal STATUS of a ready block: INITED alone (10_state.md R25, R28). -/
theorem State.Ready.status_eq {s : State} (hs : s.Ready) (hok : StatusOk s.status) : s.status = 0x02#8 := by
  obtain ⟨hlive, hinited⟩ := hs
  obtain ⟨hreserved, -, hcause⟩ := hok
  have fields : ∀ st : Byte, faultBit st = false → initedBit st = true → reservedField st = 0 → causeField st = 0 →
      st = 0x02#8 := by decide
  exact fields s.status hlive hinited hreserved (hcause.mp hlive)

/-- The seed is written by INIT alone (R107). -/
theorem StepEffect.seed {s t : State} (h : StepEffect s t) :
    t.hasher.seed = s.hasher.seed ∨
    (s.faulted = false ∧ ∃ seed rest, s.arrived = encode (.init seed) ++ rest ∧ t.hasher.seed = seed) := by
  cases h with
  | init _ seed rest hf ha => exact .inr ⟨hf, seed, rest, ha, Hasher.resetState_seed _⟩
  | reset => exact .inl (Hasher.resetState_seed _)
  | update => exact .inl (Hasher.updateAlg_seed _ _)
  | hold | discard | fault | digest => exact .inl rfl

/-- Settles O16: the answer of INIT in a live block, `reset_state` of the new seed and INITED. -/
theorem initResult : Obligations.InitResult := fun s seed hf =>
  ⟨_, execInit_of_live seed hf, Hasher.resetState_eq _, fun _ hk => getLsbD_setInited s.status hk, rfl, rfl, rfl⟩

/-- Settles O17: the answer of RESET in a ready block, `reset_state` of the stored seed. -/
theorem resetResult : Obligations.ResetResult := fun s hs => by
  rw [exec, execReset_of_ready hs, Hasher.resetState_eq]; rfl

/-- Settles O18: RESET leaves a faulted block, where the second one is discarded, or a ready block with the registers of
`reset_state`, which a second `reset_state` does not change. -/
theorem resetIsIdempotent : Obligations.ResetIsIdempotent := by
  intro s t h
  cases hf : s.faulted with
  | true =>
    rw [exec_of_faulted _ hf] at h
    cases h; exact exec_of_faulted _ hf
  | false =>
    cases hi : s.inited with
    | false =>
      cases h.symm.trans (execReset_of_not_inited hf hi)
      exact exec_of_faulted _ (State.raiseFault_faulted s _)
    | true =>
      have hs : s.Ready := ⟨hf, hi⟩
      cases h.symm.trans (execReset_of_ready hs)
      have hready : (s.withHasher s.hasher.resetState).Ready := hs
      rw [exec, execReset_of_ready hready, State.withHasher_hasher, Hasher.resetState_resetState]; rfl

/-- Settles O19: `reset_state` reads the seed alone, and STATUS is INITED alone after both commands. -/
theorem resetEqualsFreshInit : Obligations.ResetEqualsFreshInit := by
  intro s seed lanes totalLen carryLen waiting hs hok
  have hfresh := State.powerOn_faulted seed lanes totalLen carryLen waiting
  have hstatus : setInited 0 = 0x02#8 := by decide
  exact ⟨_, _, execReset_of_ready hs, execInit_of_live s.hasher.seed hfresh, rfl, (hs.status_eq hok).trans hstatus.symm⟩

/-- Settles O20: of the effects of a step, INIT is the one that writes the seed. -/
theorem onlyInitWritesSeed : Obligations.OnlyInitWritesSeed := fun _ _ h hne =>
  (stepEffect_of_step h).seed.resolve_left hne

end Sys2Proof.Machine
end

section
/-! Chunking and the empty UPDATE (41_carry_buffer_mux.md R121 to R126). -/

namespace Sys2Proof.Machine

/-- update_alg on each chunk in turn is update_alg on all of them joined (R125): no chunk at all is the empty input, and a first
chunk joins the later ones by `Hasher.updateAlg_updateAlg`. -/
theorem foldl_updateAlg (h : Hasher) (chunks : List (List Byte)) :
    chunks.foldl (fun acc d => acc.updateAlg d) h = h.updateAlg chunks.flatten := by
  induction chunks generalizing h with
  | nil => exact h.updateAlg_nil.symm
  | cons d later ih => rw [List.foldl_cons, ih, Hasher.updateAlg_updateAlg, List.flatten_cons]

/-- Settles O24: two inputs in turn join, and so, by induction, does any list of chunks. -/
theorem chunkingIndependence : Obligations.ChunkingIndependence :=
  ⟨Hasher.updateAlg_updateAlg, foldl_updateAlg⟩

/-- A packet of no bytes carries the empty input, whatever its data words hold (30_encoding.md R76, R81). -/
theorem dataBytes_zero (d0 d1 d2 d3 : Word) : dataBytes 0 d0 d1 d2 d3 = [] := rfl

/-- An UPDATE of no bytes leaves a ready block as it is: adding 0 never overflows the count, and update_alg of the empty input
is the identity (R126). -/
theorem execUpdate_zero_of_ready {s : State} (d0 d1 d2 d3 : Word) (hs : s.Ready) :
    execUpdate 0 d0 d1 d2 d3 s = .next s := by
  have hcount : s.hasher.totalLen.toNat + (0 : BitVec 5).toNat < 2 ^ 64 := s.hasher.totalLen.isLt
  rw [execUpdate_of_ready d0 d1 d2 d3 hs (by decide) hcount, dataBytes_zero, Hasher.updateAlg_nil]; rfl

/-- Settles O22: update_alg of the empty input is the identity, and N = 0 still meets the check of INITED (R126). -/
theorem emptyUpdateChangesNothing : Obligations.EmptyUpdateChangesNothing :=
  ⟨Hasher.updateAlg_nil, fun _ d0 d1 d2 d3 =>
    ⟨execUpdate_zero_of_ready d0 d1 d2 d3, fun hf hi => execUpdate_of_not_inited hf d0 d1 d2 d3 (by decide) hi⟩⟩

end Sys2Proof.Machine
end

section
/-! The block mixer (42_block_mixer.md): the lane round is a bijection of the lane value, and the lanes are independent. -/

namespace Sys2Proof.Machine

/-- P1 is odd, so multiplying by it can be undone: the second factor is its inverse mod 2^32. -/
theorem isUnit_prime1 : IsUnit prime1 :=
  IsUnit.of_mul_eq_one 0x0E8B2F51#32 (by decide)

/-- Rotating on by the rest of the word brings every bit back. -/
theorem rotl32_rotl32_sub (x : Word) {r : Nat} (h0 : 0 < r) (hr : r < 32) : rotl32 (rotl32 x r) (32 - r) = x := by
  have hback : 32 - r < 32 := by omega
  ext j hj
  simp only [rotl32_eq_rotateLeft _ hr, rotl32_eq_rotateLeft _ hback, BitVec.getElem_rotateLeft, Nat.mod_eq_of_lt hr,
    Nat.mod_eq_of_lt hback]
  -- Bit `j` was moved up to `j + r`, or past the top and round to `j - (32 - r)`.
  by_cases hlow : j < 32 - r
  · have hup : ¬ 32 - (32 - r) + j < r := by omega
    have hpos : 32 - (32 - r) + j - r = j := by omega
    simp only [hlow, hup, hpos, dite_true, dite_false]
  · have hround : j - (32 - r) < r := by omega
    have hpos : 32 - r + (j - (32 - r)) = j := by omega
    simp only [hlow, hround, hpos, dite_true, dite_false]

/-- Rotation is undone by rotating through the rest of the word, and itself undoes that one. -/
theorem rotl32_bijective {r : Nat} (h0 : 0 < r) (hr : r < 32) : Function.Bijective fun x => rotl32 x r := by
  refine Function.bijective_iff_has_inverse.mpr
    ⟨fun x => rotl32 x (32 - r), fun x => rotl32_rotl32_sub x h0 hr, fun x => ?_⟩
  have hforth := rotl32_rotl32_sub x (r := 32 - r) (by omega) (by omega)
  rwa [Nat.sub_sub_self hr.le] at hforth

/-- Settles O28: the lane round adds a constant, rotates, and multiplies by the odd P1, and each of the three can
be undone. -/
theorem laneRoundIsBijective : Obligations.LaneRoundIsBijective := fun w =>
  (IsUnit.isUnit_iff_mulRight_bijective.mp isUnit_prime1).comp
    ((rotl32_bijective (r := roundRot) (by decide) (by decide)).comp (AddGroup.addRight_bijective (w * prime2)))

/-- The new value of the lane that reads bytes `4q` to `4q + 3` is settled by its old value and those bytes. -/
theorem round32_le32_congr {acc acc' : Word} {b b' : Block} (q : Nat) (hq : q < 4) (hacc : acc = acc')
    (hb : ∀ j : Fin 16, j.val / 4 = q → b[j] = b'[j]) :
    round32 acc (le32 b[4 * q] b[4 * q + 1] b[4 * q + 2] b[4 * q + 3]) =
      round32 acc' (le32 b'[4 * q] b'[4 * q + 1] b'[4 * q + 2] b'[4 * q + 3]) := by
  have hbyte (r : Nat) (hr : r < 4) : b[4 * q + r] = b'[4 * q + r] :=
    hb ⟨4 * q + r, by omega⟩ (by dsimp only; omega)
  have h0 : b[4 * q] = b'[4 * q] := hbyte 0 (by decide)
  rw [hacc, h0, hbyte 1 (by decide), hbyte 2 (by decide), hbyte 3 (by decide)]

/-- Settles O29: lane `q + 1` of block_mix is the lane round of its own value and of bytes `4q` to `4q + 3` (R152). -/
theorem lanesAreIndependent : Obligations.LanesAreIndependent := fun _ _ _ _ =>
  ⟨round32_le32_congr 0 (by decide), round32_le32_congr 1 (by decide), round32_le32_congr 2 (by decide),
    round32_le32_congr 3 (by decide)⟩

end Sys2Proof.Machine
end

section
/-! Avalanche is a bijection (43_finalize_tail_avalanche.md R174). -/

namespace Sys2Proof.Machine

/-- P2 is odd, so multiplying by it can be undone: the second factor is its inverse mod 2^32. -/
theorem isUnit_prime2 : IsUnit prime2 :=
  IsUnit.of_mul_eq_one 0xB6C92F47#32 (by decide)

/-- P3 is odd, so multiplying by it can be undone: the second factor is its inverse mod 2^32. -/
theorem isUnit_prime3 : IsUnit prime3 :=
  IsUnit.of_mul_eq_one 0xA89ED915#32 (by decide)

/-- Only zero is its own shift to the right: the shift is a division by a power of two above 1. -/
theorem eq_zero_of_ushiftRight_eq_self {x : Word} {r : Nat} (hr : 0 < r) (hx : x >>> r = x) : x = 0#32 := by
  have hdiv : x.toNat / 2 ^ r = x.toNat := by
    rw [← Nat.shiftRight_eq_div_pow, ← BitVec.toNat_ushiftRight, hx]
  exact BitVec.eq_of_toNat_eq ((Nat.div_eq_self.mp hdiv).resolve_right (Nat.one_lt_two_pow hr.ne').ne')

/-- Folding the upper bits of a word into its lower ones loses nothing: where two words fold to the same, their difference is
its own shift, so there is none. -/
theorem xorShift_bijective {r : Nat} (hr : 0 < r) : Function.Bijective fun x : Word => x ^^^ (x >>> r) := by
  refine Finite.injective_iff_bijective.mp fun x y (hxy : x ^^^ (x >>> r) = y ^^^ (y >>> r)) => ?_
  have hdiff : (x >>> r ^^^ y >>> r) ^^^ (x ^^^ y) = 0#32 := by
    rw [← BitVec.xor_eq_zero_iff.mpr hxy]; ac_rfl
  refine BitVec.xor_eq_zero_iff.mp (eq_zero_of_ushiftRight_eq_self hr ?_)
  rw [BitVec.ushiftRight_xor_distrib]
  exact BitVec.xor_eq_zero_iff.mp hdiff

/-- Settles O30: avalanche is three folds by a shift and, between them, two products with the odd P2 and P3, and each of the
five can be undone. -/
theorem avalancheIsBijective : Obligations.AvalancheIsBijective :=
  have fold1 := xorShift_bijective (r := avalancheShift1) (by decide)
  have fold2 := xorShift_bijective (r := avalancheShift2) (by decide)
  have fold3 := xorShift_bijective (r := avalancheShift3) (by decide)
  have times2 := IsUnit.isUnit_iff_mulRight_bijective.mp isUnit_prime2
  have times3 := IsUnit.isUnit_iff_mulRight_bijective.mp isUnit_prime3
  fold3.comp (times3.comp (fold2.comp (times2.comp fold1)))

end Sys2Proof.Machine
end

section
/-! The digest stage by stage (43_finalize_tail_avalanche.md R170 to R176), and converge of a short stream (R180). -/

namespace Sys2Proof.Machine

/-- Converge takes its form from the full count (R170). -/
theorem converge_eq (h : Hasher) :
    converge h =
      if 16 ≤ h.totalLen.toNat then
        rotl32 h.lanes.v1 1 + rotl32 h.lanes.v2 7 + rotl32 h.lanes.v3 12 + rotl32 h.lanes.v4 18
      else h.lanes.v3 + 0x165667B1#32 := by
  unfold converge longStream
  simp only [decide_eq_true_eq]
  rfl

/-- Length add takes the count mod 2^32 (R171). -/
theorem lengthAdd_eq (acc : Word) (t : TotalLen) : lengthAdd acc t = acc + BitVec.ofNat 32 t.toNat := rfl

/-- The tail-byte loop is a left fold (R173). -/
theorem tailBytes_eq_foldl (acc : Word) (bytes : List Byte) : tailBytes acc bytes = bytes.foldl tailByte acc := by
  induction bytes generalizing acc with
  | nil => rfl
  | cons b rest ih => exact ih (tailByte acc b)

/-- Fewer than four bytes hold no whole word. -/
theorem tailWords_of_short (acc : Word) {bytes : List Byte} (hb : bytes.length < 4) : tailWords acc bytes = (acc, bytes) := by
  match bytes, hb with
  | [], _ | [_], _ | [_, _], _ | [_, _, _], _ => rfl

/-- The first four of a sequence of bytes, and the others. -/
theorem map_range_add_four (f : Nat → Byte) (n : Nat) :
    (List.range (n + 4)).map f = f 0 :: f 1 :: f 2 :: f 3 :: (List.range n).map fun k => f (k + 4) := by
  simp [List.range_succ_eq_map, Function.comp_def]

/-- The tail-word loop on `4q + r` bytes, `r < 4`, folds in the `q` words at offsets 0, 4, 8, … and leaves the `r` bytes
behind them (R172). -/
theorem tailWords_map_range (acc : Word) (f : Nat → Byte) (q : Nat) {r : Nat} (hr : r < 4) :
    tailWords acc ((List.range (4 * q + r)).map f) =
      ((List.range q).foldl (fun a k => tailWord a (le32 (f (4 * k)) (f (4 * k + 1)) (f (4 * k + 2)) (f (4 * k + 3)))) acc,
        (List.range r).map fun k => f (4 * q + k)) := by
  induction q generalizing acc f with
  | zero => simpa using tailWords_of_short acc (bytes := (List.range r).map f) (by simpa using hr)
  | succ q ih =>
    have hlen : 4 * (q + 1) + r = 4 * q + r + 4 := by omega
    rw [hlen, map_range_add_four, tailWords, ih, List.range_succ_eq_map, List.foldl_cons, List.foldl_map]
    simp only [Nat.mul_succ, Nat.mul_zero, Nat.zero_add, Nat.add_right_comm _ _ 4]

/-- `intdigest()` of `4q + r` pending bytes, `r < 4`, with its two loops over the offsets of the bytes (R170 to R175). -/
theorem intdigest_eq_foldl (h : Hasher) {q r : Nat} (hr : r < 4) (hc : h.carryLen.toNat = 4 * q + r) :
    intdigest h =
      avalanche ((List.range r).foldl (fun acc k => tailByte acc (h.bufByte (4 * q + k)))
        ((List.range q).foldl (fun acc k => tailWord acc
          (le32 (h.bufByte (4 * k)) (h.bufByte (4 * k + 1)) (h.bufByte (4 * k + 2)) (h.bufByte (4 * k + 3))))
          (lengthAdd (converge h) h.totalLen))) := by
  rw [intdigest, Hasher.validBytes, hc, tailWords_map_range _ _ _ hr, tailBytes_eq_foldl, List.foldl_map]

/-- Settles O31: the answer of DIGEST in a ready block is the state with `intdigest()` emitted, and that is the five stages
in turn. -/
theorem digestResult : Obligations.DigestResult := by
  intro s hs h c start counted afterWords afterBytes a b
  have hr : c % 4 < 4 := Nat.mod_lt c (by decide)
  have hdigest : intdigest h = b ^^^ (b >>> 16) := by
    rw [intdigest_eq_foldl h hr (Nat.div_add_mod c 4).symm, lengthAdd_eq, converge_eq]; rfl
  rw [exec, execDigest_of_ready hs, ← hdigest]; rfl

/-- Settles O42: fewer than 16 bytes are no block, so lane 3 is still the one of `lane_init`, the seed, and converge takes its
short form. -/
theorem shortStreamConvergesFromSeed : Obligations.ShortStreamConvergesFromSeed := by
  intro s hi hinit hshort
  obtain ⟨-, -, hlanes⟩ := invariantBoundsTheBuffer s hi hinit
  have hv3 : s.hasher.lanes.v3 = s.hasher.seed := by
    rw [hlanes hshort]; exact BitVec.add_zero _
  exact ⟨hv3, by rw [converge_eq, if_neg hshort.not_ge, hv3]⟩

end Sys2Proof.Machine
end

section
/-! A faulted block discards every packet, and stays faulted (60_exceptions.md R204). -/

namespace Sys2Proof.Machine

/-- The only effects of a step on a faulted block, a hold and a discard, reach neither the registers nor the outputs. -/
theorem StepEffect.frame_of_faulted {s t : State} (h : StepEffect s t) (hf : s.faulted = true) :
    t.hasher = s.hasher ∧ t.outputs = s.outputs := by
  cases h with
  | hold | discard => exact ⟨rfl, rfl⟩
  | fault _ _ hlive | init _ _ _ hlive => simp [hlive] at hf
  | reset _ _ hs | update _ _ _ _ _ _ _ hs | digest _ _ hs => simp [hs.1] at hf

/-- A run of a faulted block reaches neither the registers nor the outputs. -/
theorem stepMany_of_faulted {s : State} (hf : s.faulted = true) (k : Nat) :
    ∃ t, stepMany k s = .next t ∧ t.hasher = s.hasher ∧ t.outputs = s.outputs := by
  induction k generalizing s with
  | zero => exact ⟨s, stepMany_zero s, rfl, rfl⟩
  | succ k ih =>
    obtain ⟨u, hu⟩ := everyStepAnswersNext.1 s
    have he := stepEffect_of_step hu
    obtain ⟨hregs, hout⟩ := he.frame_of_faulted hf
    rw [stepMany_succ hu, ← hregs, ← hout]
    exact ih (he.faulted hf)

/-- A faulted block takes a whole packet's words off the channel, their number found from OP, and does nothing else. -/
theorem step_of_faulted_packet {s : State} {cw : Word} {operands : List Word} (hf : s.faulted = true)
    (ha : s.arrived = cw :: operands) (hl : packetLen cw ≤ operands.length + 1) :
    step s = .next (s.takeWords (packetLen cw)) := by
  rw [step, State.fetch_discard ha hl hf]

/-- Settles O14: `exec` and the decoder discard what reaches a faulted block, so no step of a run has an effect on it. -/
theorem faultedBlockDiscards : Obligations.FaultedBlockDiscards := fun _ hf =>
  ⟨fun i => exec_of_faulted i hf, fun _ _ ha hl => step_of_faulted_packet hf ha hl, stepMany_of_faulted hf⟩

end Sys2Proof.Machine
end

section
/-! The first command must be INIT (60_exceptions.md R205; 70_reset_and_hazards.md R231). -/

namespace Sys2Proof.Machine

/-- Every well-formed command but INIT faults in a live block that was never initialised (60_exceptions.md R205). -/
theorem exec_of_not_inited {i : Instr} {s : State} (hf : s.faulted = false) (hi : s.inited = false)
    (hne : ∀ seed, i ≠ .init seed) (hw : i.WellFormed) : exec i s = .next (s.raiseFault .notInitialised) := by
  cases i with
  | init seed => exact absurd rfl (hne seed)
  | reset => exact execReset_of_not_inited hf hi
  | update n d0 d1 d2 d3 => exact execUpdate_of_not_inited hf d0 d1 d2 d3 (of_decide_eq_true hw) hi
  | digest => exact execDigest_of_not_inited hf hi

/-- Settles O3: the first step enters the fault NOT_INITIALISED, and a faulted block stays as it is
(`stepMany_of_faulted`). -/
theorem firstCommandMustBeInit : Obligations.FirstCommandMustBeInit := by
  intro seed lanes totalLen carryLen i later hne hw s k
  have hstep : step s = .next ((State.powerOn seed lanes totalLen carryLen later).raiseFault .notInitialised) :=
    (step_of_arrived_packet hw rfl).trans
      (exec_of_not_inited (State.powerOn_faulted ..) (State.powerOn_inited ..) hne hw)
  obtain ⟨t, hrun, hregs, hout⟩ := stepMany_of_faulted (State.raiseFault_faulted _ .notInitialised) k
  obtain ⟨hstatus, hresults⟩ := Prod.mk.inj hout
  have hcode : setFault .notInitialised 0x00#8 = 0x41#8 := by decide
  exact ⟨t, (stepMany_succ hstep k).trans hrun, hstatus.trans hcode, hresults, hregs⟩

end Sys2Proof.Machine
end

section
/-! A whole packet reports the first of its faults in the order of 60_exceptions.md R202. -/

namespace Sys2Proof.Machine

theorem argField_toNat_mod (cw : Word) : (argField cw).toNat % 32 = (countField cw).toNat := by
  rw [argField_toNat, countField_toNat]; omega

theorem argField_toNat_div (cw : Word) : (argField cw).toNat / 32 = (updateReservedField cw).toNat := by
  rw [argField_toNat, updateReservedField_toNat]

/-- A check of the decoder that rejected the packet was not passed. -/
theorem reject_of_ite_command {p : Prop} [Decidable p] {i : Instr} {rest : List Word} {q r : Reject}
    (h : (if p then Decoded.command i rest else .rejected q) = .rejected r) : ¬p ∧ q = r := by
  split at h
  · cases h
  · next hp => cases h; exact ⟨hp, rfl⟩

section firstFault
variable {cw : Word} (s : State)

/-- `firstFault` in the fields of the header that the decoder reads (30_encoding.md R71). -/
theorem firstFault_eq (cw : Word) :
    firstFault cw s =
      if (opField cw).toNat = 0 ∨ 5 ≤ (opField cw).toNat then some 1
      else if (if (opField cw).toNat = 3 then (updateReservedField cw).toNat else (argField cw).toNat) ≠ 0 then some 2
      else if (opField cw).toNat = 3 ∧ 16 < (countField cw).toNat then some 3
      else if (opField cw).toNat ≠ 1 ∧ s.inited = false then some 4
      else if (opField cw).toNat = 3 ∧ 2 ^ 64 - 1 < s.hasher.totalLen.toNat + (countField cw).toNat then some 5
      else none := by
  simp only [firstFault, ← opField_toNat, ← argField_toNat, argField_toNat_mod, argField_toNat_div]

/-- INIT faults for its reserved bits alone. -/
theorem firstFault_of_init (ho : opField cw = 1#4) :
    firstFault cw s = if argField cw = 0#28 then none else some 2 := by
  simp [firstFault_eq, ho, BitVec.toNat_eq]

/-- RESET and DIGEST, whose headers are all reserved bits, need INITED (R205). -/
theorem firstFault_of_reset_or_digest (ho : opField cw = 2#4 ∨ opField cw = 4#4) :
    firstFault cw s = if argField cw = 0#28 then if s.inited = false then some 4 else none else some 2 := by
  rcases ho with ho | ho <;> simp [firstFault_eq, ho, BitVec.toNat_eq]

/-- UPDATE can fault for every cause but an illegal opcode. -/
theorem firstFault_of_update (ho : opField cw = 3#4) :
    firstFault cw s =
      if updateReservedField cw ≠ 0#23 then some 2
      else if 16 < (countField cw).toNat then some 3
      else if s.inited = false then some 4
      else if 2 ^ 64 ≤ s.hasher.totalLen.toNat + (countField cw).toNat then some 5
      else none := by
  simp [firstFault_eq, ho, BitVec.toNat_eq, Nat.lt_iff_add_one_le]

/-- An OP that is none of the four is an illegal opcode (R78). -/
theorem firstFault_of_reserved (ho : opField cw ≠ 1#4 ∧ opField cw ≠ 2#4 ∧ opField cw ≠ 3#4 ∧ opField cw ≠ 4#4) :
    firstFault cw s = some 1 := by
  simp only [ne_eq, BitVec.toNat_eq, BitVec.toNat_ofNat] at ho
  rw [firstFault_eq, if_pos (by omega)]

/-- A packet that is no command reports the cause the decoder names (30_encoding.md R78 to R80). -/
theorem firstFault_of_rejected {operands : List Word} {r : Reject} {c : Cause}
    (hd : decode (cw :: operands) = .rejected r) (hc : rejectCause r = some c) : firstFault cw s = some c.code := by
  rcases opcodeOf_cases cw with ⟨ho, hk⟩ | ⟨ho, hk⟩ | ⟨ho, hk⟩ | ⟨ho, hk⟩ | ⟨ho, hk⟩ <;> simp only [decode, ho] at hd
  · rcases operands with - | ⟨seed, later⟩
    · cases hd; cases hc
    · obtain ⟨ha, rfl⟩ := reject_of_ite_command hd
      cases hc
      rw [firstFault_of_init s hk, if_neg ha]; rfl
  · obtain ⟨ha, rfl⟩ := reject_of_ite_command hd
    cases hc
    rw [firstFault_of_reset_or_digest s (.inl hk), if_neg ha]; rfl
  · rcases operands with - | ⟨d0, - | ⟨d1, - | ⟨d2, - | ⟨d3, later⟩⟩⟩⟩
    iterate 4 cases hd; cases hc
    rw [firstFault_of_update s hk]
    simp only at hd
    split at hd
    · next hr => cases hd; cases hc; rw [if_pos hr]; rfl
    · next hr =>
      rw [← ite_not] at hd
      obtain ⟨hn, rfl⟩ := reject_of_ite_command hd
      cases hc
      rw [if_neg hr, if_pos (not_not.mp hn)]; rfl
  · obtain ⟨ha, rfl⟩ := reject_of_ite_command hd
    cases hc
    rw [firstFault_of_reset_or_digest s (.inr hk), if_neg ha]; rfl
  · cases hd; cases hc
    exact firstFault_of_reserved s hk

end firstFault

/-! ### The first fault of a command's packet -/

section packets
variable (s : State)

theorem firstFault_init : firstFault 0x10000000#32 s = none := by
  rw [firstFault_of_init s (by decide), if_pos argField_init]

theorem firstFault_reset : firstFault 0x20000000#32 s = if s.inited = false then some 4 else none := by
  rw [firstFault_of_reset_or_digest s (by decide), if_pos argField_reset]

theorem firstFault_digest : firstFault 0x40000000#32 s = if s.inited = false then some 4 else none := by
  rw [firstFault_of_reset_or_digest s (by decide), if_pos argField_digest]

theorem firstFault_update {n : BitVec 5} (hn : n.toNat ≤ 16) :
    firstFault (0x30000000#32 ||| n.setWidth 32) s =
      if s.inited = false then some 4 else if 2 ^ 64 ≤ s.hasher.totalLen.toNat + n.toNat then some 5 else none := by
  rw [firstFault_of_update s (opField_update n), countField_update, updateReservedField_update, if_neg (by simp),
    if_neg (by omega)]

end packets

/-- A well-formed command in a live block raises the first fault of its packet, or runs if there is none. -/
theorem exec_raises_firstFault {i : Instr} {s : State} {cw : Word} {operands : List Word} (hf : s.faulted = false)
    (hw : i.WellFormed) (he : encode i = cw :: operands) :
    (∃ c, firstFault cw s = some c.code ∧ exec i s = .next (s.raiseFault c)) ∨
    (firstFault cw s = none ∧ ∃ t, exec i s = .next t ∧ t.faulted = false) := by
  cases i with
  | init seed =>
    obtain ⟨rfl, -⟩ := List.cons.inj he
    exact .inr ⟨firstFault_init s, _, execInit_of_live seed hf, (State.markInited_faulted _).trans hf⟩
  | reset =>
    obtain ⟨rfl, -⟩ := List.cons.inj he
    cases hi : s.inited
    · exact .inl ⟨_, (firstFault_reset s).trans (if_pos hi), execReset_of_not_inited hf hi⟩
    · exact .inr ⟨(firstFault_reset s).trans (if_neg (by simp [hi])), _, execReset_of_ready ⟨hf, hi⟩, hf⟩
  | update n d0 d1 d2 d3 =>
    obtain ⟨rfl, -⟩ := List.cons.inj he
    have hn : n.toNat ≤ 16 := of_decide_eq_true hw
    rw [firstFault_update s hn]
    cases hi : s.inited
    · exact .inl ⟨_, rfl, execUpdate_of_not_inited hf d0 d1 d2 d3 hn hi⟩
    rcases Nat.lt_or_ge (s.hasher.totalLen.toNat + n.toNat) (2 ^ 64) with ht | ht
    · exact .inr ⟨by rw [if_neg (by decide), if_neg (by omega)], _,
        execUpdate_of_ready d0 d1 d2 d3 ⟨hf, hi⟩ hn ht, hf⟩
    · exact .inl ⟨.lengthOverflow, by rw [if_neg (by decide), if_pos ht]; rfl,
        execUpdate_of_overflow hf d0 d1 d2 d3 hn hi ht⟩
  | digest =>
    obtain ⟨rfl, -⟩ := List.cons.inj he
    cases hi : s.inited
    · exact .inl ⟨_, (firstFault_digest s).trans (if_pos hi), execDigest_of_not_inited hf hi⟩
    · exact .inr ⟨(firstFault_digest s).trans (if_neg (by simp [hi])), _, execDigest_of_ready ⟨hf, hi⟩, hf⟩

/-- A whole packet in a live block is taken off the channel and raises its first fault, or runs if there is none. -/
theorem step_raises_firstFault {s : State} {cw : Word} {operands : List Word} (hf : s.faulted = false)
    (ha : s.arrived = cw :: operands) (hl : packetLen cw ≤ operands.length + 1) :
    (∃ c, firstFault cw s = some c.code ∧ step s = .next ((s.takeWords (packetLen cw)).raiseFault c)) ∨
    (firstFault cw s = none ∧ ∃ t, step s = .next t ∧ t.faulted = false) := by
  rcases step_cases s with ⟨hw, -⟩ | ⟨cw', operands', ha', -, hcases⟩
  · exact absurd (hw cw operands ha) (Nat.not_lt.mpr hl)
  obtain ⟨rfl, rfl⟩ := List.cons.inj (ha.symm.trans ha')
  rcases hcases with ⟨hf', -⟩ | ⟨-, i, rest, hd, hs⟩ | ⟨-, r, c, hd, hc, hs⟩
  · exact absurd (hf.symm.trans hf') Bool.false_ne_true
  · obtain ⟨hwf, hws⟩ := eq_encode_append_of_decode hd
    obtain ⟨header, later, he, -⟩ := encode_framing i
    rw [he, List.cons_append] at hws
    obtain ⟨rfl, -⟩ := List.cons.inj hws
    rw [hs]
    exact exec_raises_firstFault (s := s.takeWords (packetLen cw)) hf hwf he
  · exact .inl ⟨c, firstFault_of_rejected s hd hc, hs⟩

/-- Settles O13: a live block raises the first fault (`step_raises_firstFault`), which writes STATUS alone (R203); a faulted
block checks nothing (`step_of_faulted_packet`). -/
theorem firstFaultIsReported : Obligations.FirstFaultIsReported := by
  intro s cw operands ha hl
  cases hf : s.faulted
  · rcases step_raises_firstFault hf ha hl with ⟨c, hc, hs⟩ | ⟨hnone, t, hs, hlive⟩
    · refine ⟨_, hs, fun _ => ⟨fun code hcode => ?_, fun hnone => ?_⟩, nofun⟩
      · cases hc.symm.trans hcode; rfl
      · cases hc.symm.trans hnone
    · exact ⟨t, hs, fun _ => ⟨fun code hcode => (nomatch hnone.symm.trans hcode), fun _ => hlive⟩, nofun⟩
  · exact ⟨_, step_of_faulted_packet hf ha hl, nofun, fun _ => rfl⟩

end Sys2Proof.Machine
end

section
/-! The blocks of a platform share nothing (60_exceptions.md R211). -/

namespace Sys2Proof.Machine
namespace Platform
variable {p : Platform} {k : Fin p.links.length}

theorem stepAt_of_step {t : State} (h : step p.links[k].block = .next t) :
    p.stepAt k = .next { links := p.links.set k { p.links[k] with block := t } } := by
  rw [stepAt, h]

theorem sendTo_of_send {host : Nat} {ws : List Word} {m : Link} (h : p.links[k].send host ws = .next m) :
    p.sendTo host k ws = .next { links := p.links.set k m } := by
  rw [sendTo, h]

end Platform

/-- Settles O47: `stepAt` and `sendTo` write one link of the list, and a list written at one place keeps the others. -/
theorem instancesAreIndependent : Obligations.InstancesAreIndependent := by
  refine fun p k => ⟨fun t h => ⟨_, Platform.stepAt_of_step h, List.length_set, ?_, fun j hj => ?_⟩,
    fun host ws m h => ⟨_, Platform.sendTo_of_send h, List.length_set, ?_, fun j hj => ?_⟩⟩
  · rw [List.getElem?_set_self k.isLt]; rfl
  · exact List.getElem?_set_ne hj.symm
  · exact List.getElem?_set_self k.isLt
  · exact List.getElem?_set_ne hj.symm

end Sys2Proof.Machine
end
